-- ==== Sys2Proof/Word.lean ====
section
/-! DEFINITION. The value types of the codec: bytes, register words and 6-bit slices (00_scope.md R8, R10). -/

namespace Sys2Proof

/-- A raw byte, and a text character (its ASCII code): 8 bits (R8, R12). -/
abbrev Byte := BitVec 8

/-- An interface register or a command word: XLEN = 32 bits (R7, R21). -/
abbrev Word := BitVec 32

/-- A slice: the 6-bit value one text character stands for (R8). -/
abbrev Slice := BitVec 6

end Sys2Proof
end

