-- ==== Sys2Proof/Syntax.lean ====
section
/-! DEFINITION. The commands of spec/opcode_table.json, one constructor a row. -/

namespace Sys2Proof

/-- The two commands (30_encoding.md R71, R73). `sp` and `dp` are the presence bits of the source and the
destination reference (R72); the other operands stand in the argument registers. -/
inductive Instr where
  | encode (sp dp : Bool)
  | decode (sp dp : Bool)
  deriving DecidableEq, Repr

end Sys2Proof
end

