-- ==== Sys2Proof/Config.lean ====
section
/-! DEFINITION. What the spec or the platform fixes for one machine: the decided constants (00_scope.md R7),
the parameters AW, REG_BASE, Admit and HostOrdering (R7, R51, 20_memory.md R62), and the free values. -/

namespace Sys2Proof

/-- TERM, the terminating marker: 0x00, decided (R7). -/
def Config.term : Byte := 0x00#8

/-- The padding character '=' (R12). -/
def Config.pad : Byte := 0x3D#8

/-- REG_SPAN, the bytes of bus address space the register block decodes (R7, R21). -/
def Config.regSpan : Nat := 0x20

/-- What a byte of buffer memory that nothing has written reads as.
DESIGN CHOICE (log 6), unsafe: R37 defines no contents. 0xAA is the filler of 95_test_vectors.md. -/
def Config.unwritten : Byte := 0xAA#8

/-- The free bytes of R241 (and S2 of 93_implementation_defined.md): what the write set of a command in flight
holds after a reset. It has no value in Lean; State.draws is the argument (log 15). -/
opaque Config.freeByte : Nat → Byte

/-- A run of buffer addresses backed by storage: base .. base + size - 1. -/
structure Region where
  base : Nat
  size : Nat
  deriving DecidableEq, Repr

def Region.holds (r : Region) (a : Nat) : Bool := decide (r.base ≤ a) && decide (a < r.base + r.size)

/-- When a write to buffer memory by one side is visible to the other (20_memory.md R62). -/
inductive Visibility where
  /-- At once. -/
  | atOnce
  /-- Once the host has done what its platform needs for it (a fence, a cache clean or invalidation), or sooner. -/
  | onFence
  deriving DecidableEq, Repr

/-- HostOrdering (R7, 20_memory.md R62): for each direction, what the platform needs so that R61 (a) and (b) hold
(log 14). -/
structure HostOrdering where
  /-- Host buffer writes to the engine: what the host needs before the CMD write (R61 (a)). -/
  toEngine : Visibility
  /-- Engine buffer writes to the host: what the host needs after the STATUS read (R61 (b)). -/
  toHost   : Visibility
  deriving DecidableEq, Repr

/-- The parameters of R7: AW, REG_BASE, Admit, which is the union of the regions (log 5), and HostOrdering. No step
writes them. -/
structure Platform where
  aw       : Nat
  regBase  : Nat
  regions  : List Region
  ordering : HostOrdering
  deriving DecidableEq, Repr

/-- Admit(addr) of R51. -/
def Platform.admits (p : Platform) (a : Nat) : Bool := p.regions.any (fun r => r.holds a)

/-- An address the engine may access: below 2^AW and admitted (20_memory.md R56). -/
def Platform.valid (p : Platform) (a : Nat) : Bool := decide (a < 2 ^ p.aw) && p.admits a

/-- The platform of State.reset: AW at its reference value 32 (R7), the register block at bus address 0, every
buffer address admitted, every write visible at once. DESIGN CHOICE (log 4): R7 leaves all four to the platform;
statements quantify over them. -/
def Platform.reference : Platform :=
  { aw := 32, regBase := 0, regions := [{ base := 0, size := 2 ^ 32 }],
    ordering := { toEngine := .atOnce, toHost := .atOnce } }

end Sys2Proof
end

