-- ==== Sys2Proof/WellFormed.lean ====
section
/-! DEFINITION. Which commands and which launch parameters are well formed. -/

namespace Sys2Proof

/-- R71 gives a command two presence bits and nothing else, and admits all their values: no `Instr` is ill formed.
What a command word may not hold (a reserved OP, a reserved bit) is no `Instr`: Decode rejects it by name. -/
def Instr.wf (i : Instr) : Bool :=
  match i with
  | .encode _ _ => true
  | .decode _ _ => true

/-- AW is an integer 1..32 (00_scope.md R7). -/
def Platform.awOk (p : Platform) : Bool := decide (1 ≤ p.aw) && decide (p.aw ≤ 32)

/-- REG_BASE is 32-byte aligned (R7). -/
def Platform.baseOk (p : Platform) : Bool := p.regBase % 32 == 0

def Platform.wf (p : Platform) : Bool := p.awOk && p.baseOk

end Sys2Proof
end

