-- ==== Sys2Proof/Decode.lean ====
section
/-! DEFINITION. CmdDecode (30_encoding.md R74), total over the 2^32 command words, and the encoder (R71). -/

namespace Sys2Proof

/-- Why a command word is Reserved (R71, R73). -/
inductive DecodeError where
  /-- A nonzero bit in [7:4] or [31:10]. -/
  | reservedBits
  /-- OP is neither 0x1 nor 0x2. -/
  | reservedOp
  deriving DecidableEq, Repr

/-- OP, bits [3:0]. -/
def opField (w : Word) : BitVec 4 := w.extractLsb' 0 4
/-- The reserved bits [7:4]. -/
def reservedLow (w : Word) : BitVec 4 := w.extractLsb' 4 4
/-- SP, bit 8. -/
def spField (w : Word) : Bool := w.getLsbD 8
/-- DP, bit 9. -/
def dpField (w : Word) : Bool := w.getLsbD 9
/-- The reserved bits [31:10]. -/
def reservedHigh (w : Word) : BitVec 22 := w.extractLsb' 10 22

/-- CmdDecode of R74: its Reserved is the error here, with the reason. -/
def decodeCmd (w : Word) : Except DecodeError Instr :=
  if reservedHigh w ≠ 0#22 ∨ reservedLow w ≠ 0#4 then .error .reservedBits
  else if opField w = 0x1#4 then .ok (.encode (spField w) (dpField w))
  else if opField w = 0x2#4 then .ok (.decode (spField w) (dpField w))
  else .error .reservedOp

/-- OP of a command (R73). -/
def Instr.op (i : Instr) : BitVec 4 :=
  match i with
  | .encode _ _ => 0x1#4
  | .decode _ _ => 0x2#4

def Instr.sp (i : Instr) : Bool :=
  match i with
  | .encode sp _ => sp
  | .decode sp _ => sp

def Instr.dp (i : Instr) : Bool :=
  match i with
  | .encode _ dp => dp
  | .decode _ dp => dp

/-- The command word of R71, bit 31 first: 22 zeros, DP, SP, 0000, OP. -/
def encodeCmd (i : Instr) : Word :=
  (0#22 ++ BitVec.ofBool i.dp ++ BitVec.ofBool i.sp ++ 0#4 ++ i.op : BitVec (22 + 1 + 1 + 4 + 4))

/-- The command a table word stands for: its low `nbits` bits, the bits above being 0. A value that does not fit
the 32-bit CMD register is no command word (R70). -/
def decodeTableWord (nbits w : Nat) : Option Instr :=
  if w % 2 ^ nbits < 2 ^ 32 then
    match decodeCmd (BitVec.ofNat 32 (w % 2 ^ nbits)) with
    | .ok i => some i
    | .error _ => none
  else none

end Sys2Proof
end

