-- ==== Sys2Proof/Machine/State.lean ====
section
/-! DEFINITION. The state of the codec as plain data, why a step can stop, and the state after reset. -/

namespace Sys2Proof.Machine

/-- Why the machine stops with a fault: `raise Fault(info)` of 00_scope.md R11, the fault mark of 10_state.md R39. -/
inductive Fault where
  /-- Raised by ENCODE and DECODE for an engine access to an invalid buffer address `addr` (20_memory.md R56,
  60_exceptions.md R216). Safe: the hardware completes with EMEM and the model claims nothing after it. -/
  | emem (addr : Nat)
  deriving DecidableEq, Repr

/-- Why a step has no meaning: the refused mark of R39. -/
inductive Refusal where
  /-- Raised by exec's arm of a command that has no meaning yet; no arm is left. Safe. -/
  | notModelled (mnemonic : String)
  /-- Raised by ENCODE and DECODE when their read and write sets share an address (20_memory.md R67). Safe. -/
  | overlap
  /-- Raised by a host buffer access to a byte of a command whose completion the host has not seen
  (70_reset_and_hazards.md R245, R61 (c)), and by `publish` and `settle` where a host write would reach such a byte
  (log 14). Safe. -/
  | bufferInUse (addr : Nat)
  /-- Raised by a host register access that is not 32 bits wide or not aligned (20_memory.md R55,
  40_command_interface.md R109). Safe. -/
  | registerAccess
  /-- Raised by a host buffer access to an address that has no storage (log 13). Safe. -/
  | hostAddress (addr : Nat)
  /-- Raised by a register access of a second host (60_exceptions.md R225). Safe. -/
  | secondHost
  deriving DecidableEq, Repr

/-- The width of a host bus access. R55 gives 32 bits a meaning and refuses "another width" without a list of them:
that the others are 8, 16 and 64 bits, and no access has any other width, is a DESIGN CHOICE (log 21). -/
inductive BusWidth where
  | w8
  | w16
  | w32
  | w64
  deriving DecidableEq, Repr

/-- The registers of 10_state.md R21, and the reserved word at offset 0x1C (R32). -/
inductive Reg where
  | cmd
  | status
  | srcAddr
  | srcLen
  | dstAddr
  | dstCap
  | result
  | reserved
  deriving DecidableEq, Repr

/-- What can happen next (40_command_interface.md R110). -/
inductive Event where
  /-- A host read of the given width at a bus address. -/
  | regRead (addr : Nat) (width : BusWidth)
  /-- A host write of the given width at a bus address. -/
  | regWrite (addr : Nat) (width : BusWidth) (v : Word)
  /-- The host reads `count` bytes of buffer memory from `addr` up (MR of R81). -/
  | bufRead (addr count : Nat)
  /-- The host writes bytes to buffer memory from `addr` up (MW of R81). -/
  | bufWrite (addr : Nat) (bytes : List Byte)
  /-- The host does what its platform needs before a CMD write, so that its buffer writes are visible to the engine
  (20_memory.md R62). -/
  | publish
  /-- The host does what its platform needs after a STATUS read, so that the engine's writes are visible to it (R62). -/
  | acquire
  /-- The platform makes the byte at `addr` visible both ways of its own accord (log 14). -/
  | settle (addr : Nat)
  /-- The engine step, if one is enabled (R105). -/
  | engine
  /-- The reset input is asserted (70_reset_and_hazards.md R240). -/
  | reset
  /-- Another host accesses the registers (60_exceptions.md R225). -/
  | secondHost
  deriving DecidableEq, Repr

/-- The bytes a command reads, readBase .. readBase + readLen - 1, and those its write set takes in, writeBase ..
writeBase + writeLen - 1 (42_encode.md R150, 43_decode.md R191, 20_memory.md R67). -/
structure Footprint where
  readBase  : Nat
  readLen   : Nat
  writeBase : Nat
  writeLen  : Nat
  deriving DecidableEq, Repr

/-- Buffer memory: the bytes written so far, by strictly rising address, none of them equal to what an unlisted
address reads as (Memory.wf in Machine/Ops.lean). -/
abbrev Memory := List Host.Cell

/-- Bytes by strictly rising address, of any value. -/
abbrev Cells := List Host.Cell

/-- The state. -/
structure State where
  /-- AW, REG_BASE, Admit and HostOrdering (00_scope.md R7): no step writes them. -/
  plat    : Platform
  /-- CMD (10_state.md R22). -/
  cmd     : Word
  /-- STATUS.BUSY (R23): a command is in flight (R36). -/
  busy    : Bool
  /-- STATUS.DONE (R24). -/
  done    : Bool
  /-- STATUS.OVR (R25). -/
  ovr     : Bool
  /-- STATUS.ERR (R26). -/
  err     : BitVec 4
  /-- SRC_ADDR (R28). -/
  srcAddr : Word
  /-- SRC_LEN (R29). -/
  srcLen  : Word
  /-- DST_ADDR (R30). -/
  dstAddr : Word
  /-- DST_CAP (R31). -/
  dstCap  : Word
  /-- RESULT (R27). -/
  result  : Word
  /-- Buffer memory, as the engine sees it (R37, 20_memory.md R51). -/
  mem     : Memory
  /-- Host buffer writes not yet visible to the engine, where HostOrdering lets there be any (20_memory.md R62). -/
  unseen  : Cells
  /-- Buffer memory as the host last saw it, but for `unseen`, where engine writes are not visible to it at once (R62). -/
  hostMem : Memory
  /-- The footprints of the commands whose completion the host has not seen, newest first (R245). -/
  windows : List Footprint
  /-- The model's own: the events to come, oldest first (R110). -/
  inputs  : List Event
  /-- The model's own: how many free bytes have been drawn (R241). -/
  draws   : Nat
  /-- The model's own: the block's answer to the last host register read, none where it did not reach the block. -/
  rdData  : Option Word
  /-- The model's own: the bytes of the last host buffer read. -/
  bufData : List Byte
  deriving DecidableEq, Repr

/-- The reset values of 10_state.md R38 on a platform, with nothing listed in memory and no event to come. -/
def State.resetOn (p : Platform) : State :=
  { plat := p, cmd := 0#32, busy := false, done := false, ovr := false, err := 0#4,
    srcAddr := 0#32, srcLen := 0#32, dstAddr := 0#32, dstCap := 0#32, result := 0#32,
    mem := [], unseen := [], hostMem := [], windows := [], inputs := [], draws := 0, rdData := none, bufData := [] }

/-- The machine right after reset (R38, R242), on the reference platform (log 4). -/
def State.reset : State := State.resetOn Platform.reference

end Sys2Proof.Machine
end

