-- ==== Sys2Proof/Machine/Flags.lean ====
section
/-! DEFINITION. The STATUS fields, the error codes and RESULT: the one completion of every command, its
acknowledgement, and the other writes to the flags (40_command_interface.md, 60_exceptions.md). -/

namespace Sys2Proof.Machine

/-- The error codes of 60_exceptions.md R211; 6..15 are never raised. -/
inductive ErrCode where
  | ok
  | earg
  | elen
  | ecap
  | ecmd
  | emem
  deriving DecidableEq, Repr

/-- The value an error code has in STATUS.ERR (R211). -/
def ErrCode.bits (e : ErrCode) : BitVec 4 :=
  match e with
  | .ok => 0#4
  | .earg => 1#4
  | .elen => 2#4
  | .ecap => 3#4
  | .ecmd => 4#4
  | .emem => 5#4

/-- RESULT after a completion: the count, or 2^32 minus the code (10_state.md R27, R106). -/
def resultValue (code : ErrCode) (value : Nat) : Word :=
  if code.bits = 0#4 then BitVec.ofNat 32 value else BitVec.ofNat 32 (2 ^ 32 - code.bits.toNat)

/-- complete(code, value) of 40_command_interface.md R106: what every command, failed or not, ends with. It is the
block's whole trap mechanism; nothing else is saved and no control moves (60_exceptions.md R219). -/
def complete (code : ErrCode) (value : Nat) (s : State) : State :=
  { s with err := code.bits, result := resultValue code value, busy := false, done := true }

/-- StatusWrite(v) of R103: write-1-to-clear on DONE and OVR. Clearing DONE is how the host acknowledges a
completion (60_exceptions.md R220). -/
def statusWrite (v : Word) (s : State) : State :=
  { s with done := s.done && !v.getLsbD 1, ovr := s.ovr && !v.getLsbD 2 }

/-- The STATUS word of 30_encoding.md R75: zext_32 of ERR, 0, OVR, DONE, BUSY. -/
def statusWord (s : State) : Word :=
  (s.err ++ 0#1 ++ BitVec.ofBool s.ovr ++ BitVec.ofBool s.done ++ BitVec.ofBool s.busy
    : BitVec (4 + 1 + 1 + 1 + 1)).setWidth 32

/-- A register write dropped because a command is in flight (R102): only OVR is set. -/
def overrun (s : State) : State := { s with ovr := true }

end Sys2Proof.Machine
end

