-- ==== Sys2Proof/Machine/Operands.lean ====
section
/-! DEFINITION. The data formats: the two ROMs, the group packer and unpacker, the whole-buffer functions and the
length rules (41_alphabet_lut.md, 42_encode.md, 43_decode.md). All are pure functions of bytes and numbers. -/

namespace Sys2Proof.Machine

/-- The ROM ALPHA, as the function of 41_alphabet_lut.md R121. -/
def alpha (s : Slice) : Byte :=
  if s.toNat ≤ 25 then BitVec.ofNat 8 (0x41 + s.toNat)
  else if s.toNat ≤ 51 then BitVec.ofNat 8 (0x61 + (s.toNat - 26))
  else if s.toNat ≤ 61 then BitVec.ofNat 8 (0x30 + (s.toNat - 52))
  else if s.toNat = 62 then 0x2B#8
  else 0x2F#8

/-- The ROM DLUT, as the function of R123; `none` is INVALID, whose stored form is not architected (R125). -/
def dlut (c : Byte) : Option Slice :=
  if 0x41 ≤ c.toNat ∧ c.toNat ≤ 0x5A then some (BitVec.ofNat 6 (c.toNat - 0x41))
  else if 0x61 ≤ c.toNat ∧ c.toNat ≤ 0x7A then some (BitVec.ofNat 6 (c.toNat - 0x61 + 26))
  else if 0x30 ≤ c.toNat ∧ c.toNat ≤ 0x39 then some (BitVec.ofNat 6 (c.toNat - 0x30 + 52))
  else if c.toNat = 0x2B then some 62#6
  else if c.toNat = 0x2F then some 63#6
  else none

/-- ceil(n/3): how many groups ENCODE makes of n raw bytes (42_encode.md R143). -/
def groupCount (n : Nat) : Nat := (n + 2) / 3

/-- 4*ceil(n/3): the characters ENCODE emits (R144). -/
def textLength (n : Nat) : Nat := 4 * groupCount n

/-- 4*ceil(n/3) + 1: the capacity ENCODE needs, an exact integer (R146). -/
def encodeNeed (n : Nat) : Nat := textLength n + 1

/-- The 24-bit window of an encoder group, the first byte most significant (R140). -/
def encWindow (b0 b1 b2 : Byte) : BitVec 24 := (b0 ++ b1 ++ b2 : BitVec (8 + 8 + 8))

/-- The slices of a window, most significant first (R141). -/
def slice0 (w : BitVec 24) : Slice := w.extractLsb' 18 6
def slice1 (w : BitVec 24) : Slice := w.extractLsb' 12 6
def slice2 (w : BitVec 24) : Slice := w.extractLsb' 6 6
def slice3 (w : BitVec 24) : Slice := w.extractLsb' 0 6

/-- ENC_GROUP with k = 3 bytes present (R142). -/
def encGroup3 (b0 b1 b2 : Byte) : List Byte :=
  let w := encWindow b0 b1 b2
  [alpha (slice0 w), alpha (slice1 w), alpha (slice2 w), alpha (slice3 w)]

/-- ENC_GROUP with k = 2: the missing byte is 0, the last character is padding (R142). -/
def encGroup2 (b0 b1 : Byte) : List Byte :=
  let w := encWindow b0 b1 0#8
  [alpha (slice0 w), alpha (slice1 w), alpha (slice2 w), Config.pad]

/-- ENC_GROUP with k = 1: the missing bytes are 0, the last two characters are padding (R142). -/
def encGroup1 (b0 : Byte) : List Byte :=
  let w := encWindow b0 0#8 0#8
  [alpha (slice0 w), alpha (slice1 w), Config.pad, Config.pad]

/-- EncodeBytes of R143. -/
def encodeBytes : List Byte → List Byte
  | b0 :: b1 :: b2 :: rest => encGroup3 b0 b1 b2 ++ encodeBytes rest
  | [b0, b1] => encGroup2 b0 b1
  | [b0] => encGroup1 b0
  | [] => []

/-- What the group unpacker answers (43_decode.md R177). -/
structure GroupResult where
  ok   : Bool
  out  : List Byte
  stop : Bool
  deriving DecidableEq, Repr

/-- pi of R171: the padding character is recognised by comparison alone. -/
def isPad (c : Byte) : Bool := c == Config.pad

/-- Validity of the character at group position `i` (R172); positions 2 and 3 permit padding (R173). -/
def charValid (i : Nat) (c : Byte) : Bool := (dlut c).isSome || (isPad c && decide (2 ≤ i))

/-- The value of a character, 0 at a padding position (R175). -/
def charValue (c : Byte) : Slice := (dlut c).getD 0#6

/-- The bytes of a group, from its values (R175, R79). -/
def decByte0 (v0 v1 : Slice) : Byte := (v0 ++ v1.extractLsb' 4 2 : BitVec (6 + 2))
def decByte1 (v1 v2 : Slice) : Byte := (v1.extractLsb' 0 4 ++ v2.extractLsb' 2 4 : BitVec (4 + 4))
def decByte2 (v2 v3 : Slice) : Byte := (v2.extractLsb' 0 2 ++ v3 : BitVec (2 + 6))

/-- DEC_GROUP of R177: the whole group is checked before any byte is emitted (R174). -/
def decGroup (c0 c1 c2 c3 : Byte) : GroupResult :=
  if charValid 0 c0 && charValid 1 c1 && charValid 2 c2 && charValid 3 c3 then
    let byte0 := decByte0 (charValue c0) (charValue c1)
    let byte1 := decByte1 (charValue c1) (charValue c2)
    let byte2 := decByte2 (charValue c2) (charValue c3)
    if isPad c2 then { ok := true, out := [byte0], stop := true }
    else if isPad c3 then { ok := true, out := [byte0, byte1], stop := true }
    else { ok := true, out := [byte0, byte1, byte2], stop := false }
  else { ok := false, out := [], stop := true }

/-- DecodeGroups of R188. An invalid group has an empty `out` and stops, so one rule serves both its breaks. -/
def decodeGroups : List Byte → List Byte
  | c0 :: c1 :: c2 :: c3 :: rest =>
    let g := decGroup c0 c1 c2 c3
    if g.stop then g.out else g.out ++ decodeGroups rest
  | _ => []

/-- TrailingPad of R185: '=' counted contiguously from the end, at most 2. -/
def trailingPad (text : List Byte) : Nat :=
  match text.reverse with
  | last :: prev :: _ => if isPad last then (if isPad prev then 2 else 1) else 0
  | _ => 0

/-- The expected length E of R186, for a text that is already truncated to whole groups. -/
def expectedLength (text : List Byte) : Nat := text.length / 4 * 3 - trailingPad text

/-- L4 of R183: the largest multiple of 4 not above the effective length. -/
def truncatedLength (len : Nat) : Nat := 4 * (len / 4)

end Sys2Proof.Machine
end

