-- ==== Sys2Proof/Machine/Ops.lean ====
section
/-! DEFINITION. The operations the meanings share: buffer memory, the footprint of a command, issue, and a store
that ends a command. The completion itself, and its acknowledgement, stand in Machine/Flags.lean. -/

namespace Sys2Proof.Machine

/-! ### Buffer memory (20_memory.md) -/

/-- Addresses strictly rising. -/
def Memory.sorted : Memory → Bool
  | [] => true
  | c :: m => m.all (fun d => decide (c.1 < d.1)) && Memory.sorted m

/-- The canonical form: strictly rising, and no cell that holds what an unlisted address reads as. -/
def Memory.wf (m : Memory) : Bool := Memory.sorted m && m.all (fun c => c.2 != Config.unwritten)

/-- MemRead(addr, 1): the last byte written there (R52, R58); one nothing has written reads as `Config.unwritten`. -/
def Memory.byteAt : Memory → Nat → Byte
  | [], _ => Config.unwritten
  | (b, v) :: m, a => if b = a then v else Memory.byteAt m a

/-- The memory without a cell at `a`. -/
def Memory.remove (m : Memory) (a : Nat) : Memory := m.filter (fun c => decide (c.1 ≠ a))

/-- A cell put in its place among rising addresses. -/
def Memory.put (a : Nat) (v : Byte) : Memory → Memory
  | [] => [(a, v)]
  | (b, w) :: m => if a < b then (a, v) :: (b, w) :: m else (b, w) :: Memory.put a v m

/-- MemWrite(addr, 1, v): it changes its own byte alone (R58), and keeps the canonical form. -/
def Memory.write (m : Memory) (a : Nat) (v : Byte) : Memory :=
  if v = Config.unwritten then m.remove a else Memory.put a v (m.remove a)

/-- The bytes at a, a + 1, ..., a + n - 1: element i of a buffer is the byte at a + i (R53). -/
def Memory.bytesAt (m : Memory) (a : Nat) : Nat → List Byte
  | 0 => []
  | n + 1 => m.byteAt a :: Memory.bytesAt m (a + 1) n

/-- The byte a list of cells holds at an address, if any. -/
def Cells.byteFor : Cells → Nat → Option Byte
  | [], _ => none
  | (b, v) :: m, a => if b = a then some v else Cells.byteFor m a

/-- A cell set, whatever its byte; the addresses stay strictly rising. -/
def Cells.assign (m : Cells) (a : Nat) (v : Byte) : Cells := Memory.put a v (Memory.remove m a)

/-- Bytes set at a, a + 1, ... -/
def Cells.assignBytes (m : Cells) (a : Nat) : List Byte → Cells
  | [] => m
  | b :: bs => Cells.assignBytes (Cells.assign m a b) (a + 1) bs

/-- Every cell of a list written to memory. -/
def Memory.writeCells (m : Memory) : Cells → Memory
  | [] => m
  | (a, v) :: rest => (Memory.writeCells m rest).write a v

/-- Bytes stored at a, a + 1, ... (R53). -/
def Memory.store (m : Memory) (a : Nat) : List Byte → Memory
  | [] => m
  | b :: bs => Memory.store (m.write a b) (a + 1) bs

/-- The first invalid address among the n from `a` up (R56); addresses are integers and do not wrap. -/
def firstInvalid (p : Platform) (a : Nat) : Nat → Option Nat
  | 0 => none
  | n + 1 => if p.valid a then firstInvalid p (a + 1) n else some a

/-- Whether two address ranges share an address (20_memory.md R67). -/
def rangesOverlap (a n b k : Nat) : Bool := decide (max a b < min (a + n) (b + k))

/-! ### The lengths DECODE takes from memory (43_decode.md) -/

/-- EffectiveLength of R181: the characters before the first TERM, at most `k`. -/
def effectiveLength (m : Memory) (a : Nat) : Nat → Nat
  | 0 => 0
  | k + 1 => if m.byteAt a = Config.term then 0 else 1 + effectiveLength m (a + 1) k

/-- R of R191: the bytes the scan reads, the marker itself included. An address without storage counts as a byte that
nothing has written, and the scan goes on past it: DESIGN CHOICE (log 22), since R191 needs a byte there and the spec
gives none; the command itself faults at that address. -/
def scanLength (m : Memory) (a : Nat) : Nat → Nat
  | 0 => 0
  | k + 1 => if m.byteAt a = Config.term then 1 else 1 + scanLength m (a + 1) k

/-- R of R191 for the DECODE that the registers describe. -/
def decodeScan (s : State) : Nat := scanLength s.mem s.srcAddr.toNat s.srcLen.toNat

/-- L of R181 for the DECODE that the registers describe. -/
def decodeLength (s : State) : Nat := effectiveLength s.mem s.srcAddr.toNat s.srcLen.toNat

/-- The truncated text of R183 for the DECODE that the registers describe. -/
def decodeText (s : State) : List Byte := s.mem.bytesAt s.srcAddr.toNat (truncatedLength (decodeLength s))

/-- The raw bytes of the ENCODE that the registers describe (42_encode.md R145). -/
def encodeRaw (s : State) : List Byte := s.mem.bytesAt s.srcAddr.toNat s.srcLen.toNat

/-- What that ENCODE writes: the text, then TERM (R147). -/
def encodeOutput (s : State) : List Byte := encodeBytes (encodeRaw s) ++ [Config.term]

/-! ### Footprints (the read and write sets of R67, R245 and R241) -/

/-- A command that touches no buffer byte. -/
def Footprint.empty : Footprint := { readBase := 0, readLen := 0, writeBase := 0, writeLen := 0 }

def Footprint.reads (f : Footprint) (a : Nat) : Bool := decide (f.readBase ≤ a) && decide (a < f.readBase + f.readLen)
def Footprint.writes (f : Footprint) (a : Nat) : Bool := decide (f.writeBase ≤ a) && decide (a < f.writeBase + f.writeLen)
def Footprint.touches (f : Footprint) (a : Nat) : Bool := f.reads a || f.writes a

/-- ENCODE reads n bytes once its checks pass, and none else (R150). Its write set is R67's range, 4*ceil(n/3) + 1 bytes,
also where it will fail a check; an absent destination has none (log 10). -/
def encodeFootprint (sp dp : Bool) (s : State) : Footprint :=
  { readBase := s.srcAddr.toNat,
    readLen := if sp && dp && decide (encodeNeed s.srcLen.toNat ≤ s.dstCap.toNat) then s.srcLen.toNat else 0,
    writeBase := s.dstAddr.toNat, writeLen := if dp then encodeNeed s.srcLen.toNat else 0 }

/-- DECODE reads the R bytes of R191, and its write set is the E bytes of R67 and R241, also where DST_CAP is below E; with
an absent reference it has neither (log 10). Where the scan meets an address without storage, both are counted as
`scanLength` says (log 22). -/
def decodeFootprint (sp dp : Bool) (s : State) : Footprint :=
  if sp && dp then
    { readBase := s.srcAddr.toNat, readLen := decodeScan s,
      writeBase := s.dstAddr.toNat, writeLen := expectedLength (decodeText s) }
  else Footprint.empty

/-- The footprint of the command that CMD and the argument registers describe; a Reserved word touches nothing
(30_encoding.md R74). -/
def footprint (s : State) : Footprint :=
  match decodeCmd s.cmd with
  | .ok (.encode sp dp) => encodeFootprint sp dp s
  | .ok (.decode sp dp) => decodeFootprint sp dp s
  | .error _ => Footprint.empty

/-- A byte of a command whose completion the host has not seen (70_reset_and_hazards.md R245). -/
def State.inUse (s : State) (a : Nat) : Bool := s.windows.any (fun f => f.touches a)

/-! ### What the host sees of buffer memory (20_memory.md R61, R62) -/

/-- The byte the host reads at an address: its own last write, where the engine does not see that yet; else memory, or
memory as the host last saw it. -/
def State.hostByte (s : State) (a : Nat) : Byte :=
  match s.unseen.byteFor a with
  | some v => v
  | none =>
    match s.plat.ordering.toHost with
    | .atOnce => s.mem.byteAt a
    | .onFence => s.hostMem.byteAt a

/-- The n bytes the host reads from `a` up. -/
def State.hostBytes (s : State) (a : Nat) : Nat → List Byte
  | 0 => []
  | n + 1 => s.hostByte a :: State.hostBytes s (a + 1) n

/-- Memory as the host last saw it, with bytes it knows put in; kept only where the host may see older bytes. -/
def State.hostCopy (s : State) (m : Memory) : Memory :=
  match s.plat.ordering.toHost with
  | .atOnce => s.hostMem
  | .onFence => m

/-- Host bytes written at `a`, a + 1, ...: to memory, or to the writes the engine does not see yet. -/
def State.hostStore (s : State) (a : Nat) (bytes : List Byte) : State :=
  match s.plat.ordering.toEngine with
  | .atOnce => { s with mem := s.mem.store a bytes, hostMem := s.hostCopy (s.hostMem.store a bytes) }
  | .onFence => { s with unseen := s.unseen.assignBytes a bytes }

/-! ### Issue, and the end of a command -/

/-- Issue() of 40_command_interface.md R104, after CMD <- w: the command is in flight, and its buffers are closed to
the host until the host sees it complete (R245). -/
def issue (w : Word) (s : State) : State :=
  let s := { s with cmd := w, busy := true, done := false }
  { s with windows := footprint s :: s.windows }

/-- The writes of a command that succeeds, then its completion (R106): the bytes go to `a`, a + 1, ..., the count is
`value`; an invalid address faults (20_memory.md R56). -/
def storeAndComplete (a : Nat) (bytes : List Byte) (value : Nat) (s : State) : Host.Outcome State Fault Refusal :=
  match firstInvalid s.plat a bytes.length with
  | some bad => .fault (.emem bad)
  | none => .next (complete .ok value { s with mem := s.mem.store a bytes })

/-- The state with command `w` in flight and the engine to move next: what withFetchWord stands for (log 3). -/
def placeCommand (w : Word) (s : State) : State :=
  let s := issue w s
  { s with inputs := .engine :: s.inputs }

end Sys2Proof.Machine
end

