-- ==== Sys2Proof/Machine/Bus.lean ====
section
/-! DEFINITION. What the host and the reset input do: register reads and writes (40_command_interface.md), buffer
accesses (20_memory.md, 70_reset_and_hazards.md R245) and the reset event (R240, R241). -/

namespace Sys2Proof.Machine

/-! ### The register block on the bus -/

/-- The byte offset of a register from REG_BASE (10_state.md R21). -/
def Reg.offset (r : Reg) : Nat :=
  match r with
  | .cmd => 0x00
  | .status => 0x04
  | .srcAddr => 0x08
  | .srcLen => 0x0C
  | .dstAddr => 0x10
  | .dstCap => 0x14
  | .result => 0x18
  | .reserved => 0x1C

/-- The register at an offset; a misaligned offset is none (20_memory.md R55). -/
def Reg.ofOffset (off : Nat) : Option Reg :=
  match off with
  | 0x00 => some .cmd
  | 0x04 => some .status
  | 0x08 => some .srcAddr
  | 0x0C => some .srcLen
  | 0x10 => some .dstAddr
  | 0x14 => some .dstCap
  | 0x18 => some .result
  | 0x1C => some .reserved
  | _ => none

def BusWidth.bytes (w : BusWidth) : Nat :=
  match w with
  | .w8 => 1
  | .w16 => 2
  | .w32 => 4
  | .w64 => 8

/-- An access that shares a byte with REG_BASE .. REG_BASE + 0x1F (20_memory.md R59); any other does not reach the
block (40_command_interface.md R109). -/
def reachesBlock (p : Platform) (addr : Nat) (w : BusWidth) : Bool :=
  rangesOverlap addr w.bytes p.regBase Config.regSpan

/-- The register a 32-bit aligned access at `addr` names; none where R55 gives the access no meaning. -/
def busReg (p : Platform) (addr : Nat) (w : BusWidth) : Option Reg :=
  if w = .w32 ∧ p.regBase ≤ addr then Reg.ofOffset (addr - p.regBase) else none

/-- RegRead(off) of R100. -/
def regValue (r : Reg) (s : State) : Word :=
  match r with
  | .cmd => s.cmd
  | .status => statusWord s
  | .srcAddr => s.srcAddr
  | .srcLen => s.srcLen
  | .dstAddr => s.dstAddr
  | .dstCap => s.dstCap
  | .result => s.result
  | .reserved => 0#32

/-- v mod 2^AW, what an address register keeps of a written value (10_state.md R28, R30). -/
def addressValue (p : Platform) (v : Word) : Word := BitVec.ofNat 32 (v.toNat % 2 ^ p.aw)

/-- RegWrite(off, v) while idle (R101). -/
def writeIdle (r : Reg) (v : Word) (s : State) : State :=
  match r with
  | .cmd => issue v s
  | .status => statusWrite v s
  | .srcAddr => { s with srcAddr := addressValue s.plat v }
  | .srcLen => { s with srcLen := v }
  | .dstAddr => { s with dstAddr := addressValue s.plat v }
  | .dstCap => { s with dstCap := v }
  | .result => s
  | .reserved => s

/-- RegWrite(off, v) while busy (R102). -/
def writeBusy (r : Reg) (v : Word) (s : State) : State :=
  match r with
  | .cmd => overrun s
  | .status => statusWrite v s
  | .srcAddr => overrun s
  | .srcLen => overrun s
  | .dstAddr => overrun s
  | .dstCap => overrun s
  | .result => s
  | .reserved => s

/-- RegWrite(off, v). -/
def writeReg (r : Reg) (v : Word) (s : State) : State := if s.busy then writeBusy r v s else writeIdle r v s

/-- What a register read does besides answering: a STATUS read that returns DONE = 1 is how the host sees a command
complete, and gives it the buffers back (R108, R245). It changes no state of the block (R100). -/
def readReg (r : Reg) (s : State) : State :=
  { s with rdData := some (regValue r s), windows := if r = .status ∧ s.done = true then [] else s.windows }

/-- RD (R100). -/
def hostRegRead (addr : Nat) (w : BusWidth) (s : State) : Host.Outcome State Fault Refusal :=
  if reachesBlock s.plat addr w then
    match busReg s.plat addr w with
    | some r => .next (readReg r s)
    | none => .refused .registerAccess
  else .next { s with rdData := none }

/-- WR (R101, R102). -/
def hostRegWrite (addr : Nat) (w : BusWidth) (v : Word) (s : State) : Host.Outcome State Fault Refusal :=
  if reachesBlock s.plat addr w then
    match busReg s.plat addr w with
    | some r => .next (writeReg r v s)
    | none => .refused .registerAccess
  else .next s

/-! ### Host accesses to buffer memory -/

/-- Why a host access to the n bytes from `a` up is refused: a byte without storage (log 13), or a byte of a command
whose completion the host has not seen (70_reset_and_hazards.md R245, 20_memory.md R61 (c)). -/
def hostRefusal (s : State) (a : Nat) : Nat → Option Refusal
  | 0 => none
  | n + 1 =>
    if !s.plat.valid a then some (.hostAddress a)
    else if s.inUse a then some (.bufferInUse a)
    else hostRefusal s (a + 1) n

/-- MR (30_encoding.md R81): the bytes as the host sees them. -/
def hostBufRead (a n : Nat) (s : State) : Host.Outcome State Fault Refusal :=
  match hostRefusal s a n with
  | some r => .refused r
  | none => .next { s with bufData := s.hostBytes a n }

/-- MW (R81). -/
def hostBufWrite (a : Nat) (bytes : List Byte) (s : State) : Host.Outcome State Fault Refusal :=
  match hostRefusal s a bytes.length with
  | some r => .refused r
  | none => .next (s.hostStore a bytes)

/-! ### HostOrdering (20_memory.md R62, log 14) -/

/-- The first cell of a list at a byte of a command whose completion the host has not seen. -/
def firstInUse (s : State) : Cells → Option Nat
  | [] => none
  | (a, _) :: rest => if s.inUse a then some a else firstInUse s rest

/-- The host's means before a CMD write (R61 (a)): every host write becomes visible to the engine. A write that would reach
a buffer closed to the host is refused (70_reset_and_hazards.md R245). -/
def hostPublish (s : State) : Host.Outcome State Fault Refusal :=
  match firstInUse s s.unseen with
  | some a => .refused (.bufferInUse a)
  | none =>
    .next { s with mem := s.mem.writeCells s.unseen, unseen := [],
                   hostMem := s.hostCopy (s.hostMem.writeCells s.unseen) }

/-- The host's means after a STATUS read (R61 (b)): every engine write becomes visible to the host. -/
def hostAcquire (s : State) : State := { s with hostMem := s.hostCopy s.mem }

/-- The platform makes the byte at `a` visible without being asked: a host write to the engine, or else the engine's byte
to the host. -/
def settleByte (a : Nat) (s : State) : Host.Outcome State Fault Refusal :=
  match s.unseen.byteFor a with
  | some v =>
    if s.inUse a then .refused (.bufferInUse a)
    else
      .next { s with mem := s.mem.write a v, unseen := Memory.remove s.unseen a,
                     hostMem := s.hostCopy (s.hostMem.write a v) }
  | none => .next { s with hostMem := s.hostCopy (s.hostMem.write a (s.mem.byteAt a)) }

/-! ### Reset -/

/-- `n` free bytes, drawn from the counter `k` on, into the n addresses from `a` up; an address without storage takes
none (70_reset_and_hazards.md R241). -/
def storeFree (p : Platform) (k a : Nat) (m : Memory) : Nat → Memory
  | 0 => m
  | n + 1 => storeFree p (k + 1) (a + 1) (if p.valid a then m.write a (Config.freeByte k) else m) n

/-- The reset event (R240): every register takes its value of 10_state.md R38, and a command in flight is abandoned
with its write set holding free bytes (R241). The host, its events, its writes and memory elsewhere are not reset. -/
def resetEvent (s : State) : State :=
  let n := if s.busy then (footprint s).writeLen else 0
  { State.resetOn s.plat with
      mem := storeFree s.plat s.draws (footprint s).writeBase s.mem n, draws := s.draws + n,
      unseen := s.unseen, hostMem := s.hostMem, inputs := s.inputs, rdData := s.rdData, bufData := s.bufData }

end Sys2Proof.Machine
end

