-- ==== Sys2Proof/Machine/Decoder.lean ====
section
/-! DEFINITION. DECODE: the length rules and the group unpacker applied to buffer memory (43_decode.md). -/

namespace Sys2Proof.Machine

/-- DecodeCommand(sp, dp) of 43_decode.md R189, in the check order of R192. The scan of R181 comes before every check
but the first, so an invalid source address shows first; overlapping sets are refused once every check has passed
(20_memory.md R67). -/
def execDecode (sp dp : Bool) (s : State) : Host.Outcome State Fault Refusal :=
  if !(sp && dp) then .next (complete .earg 0 s)
  else
    match firstInvalid s.plat s.srcAddr.toNat (decodeScan s) with
    | some bad => .fault (.emem bad)
    | none =>
      if decodeLength s = 0 then .next (complete .ok 0 s)
      else if truncatedLength (decodeLength s) = 0 then .next (complete .elen 0 s)
      else if s.dstCap.toNat < expectedLength (decodeText s) then .next (complete .ecap 0 s)
      else if rangesOverlap s.srcAddr.toNat (decodeScan s) s.dstAddr.toNat (expectedLength (decodeText s)) then
        .refused .overlap
      else
        storeAndComplete s.dstAddr.toNat (decodeGroups (decodeText s)) (decodeGroups (decodeText s)).length s

end Sys2Proof.Machine
end

