-- ==== Sys2Proof/Machine/Encoder.lean ====
section
/-! DEFINITION. ENCODE: the group packer applied to buffer memory (42_encode.md). -/

namespace Sys2Proof.Machine

/-- EncodeCommand(sp, dp) of 42_encode.md R145, in the check order of R151; overlapping sets are refused (20_memory.md
R67, log 8) and an invalid address faults (R56). -/
def execEncode (sp dp : Bool) (s : State) : Host.Outcome State Fault Refusal :=
  let n := s.srcLen.toNat
  if !(sp && dp) then .next (complete .earg 0 s)
  else if s.dstCap.toNat < encodeNeed n then .next (complete .ecap 0 s)
  else if rangesOverlap s.srcAddr.toNat n s.dstAddr.toNat (encodeNeed n) then .refused .overlap
  else
    match firstInvalid s.plat s.srcAddr.toNat n with
    | some bad => .fault (.emem bad)
    | none => storeAndComplete s.dstAddr.toNat (encodeOutput s) (textLength n) s

end Sys2Proof.Machine
end

