-- ==== Sys2Proof/Machine/Dispatch.lean ====
section
/-! DEFINITION. The command dispatch of 40_command_interface.md R107: one arm a command. -/

namespace Sys2Proof.Machine

def exec (i : Instr) (s : State) : Host.Outcome State Fault Refusal :=
  match i with
  | .encode sp dp => Sys2Proof.Machine.execEncode sp dp s
  | .decode sp dp => Sys2Proof.Machine.execDecode sp dp s

end Sys2Proof.Machine
end

