-- ==== Sys2Proof/Machine/Engine.lean ====
section
/-! DEFINITION. The engine step and the step relation of 40_command_interface.md R105, R107 and R110. -/

namespace Sys2Proof.Machine

/-- Perform() of R107: the command in CMD, or ECMD for a Reserved word (60_exceptions.md R215). -/
def perform (s : State) : Host.Outcome State Fault Refusal :=
  match decodeCmd s.cmd with
  | .ok i => exec i s
  | .error _ => .next (complete .ecmd 0 s)

/-- The engine's turn: its one step while BUSY = 1 (R105); it has none while BUSY = 0 (R110). -/
def engineTurn (s : State) : Host.Outcome State Fault Refusal :=
  if s.busy then perform s else .next s

/-- One event (R110). -/
def runEvent (e : Event) (s : State) : Host.Outcome State Fault Refusal :=
  match e with
  | .regRead addr w => hostRegRead addr w s
  | .regWrite addr w v => hostRegWrite addr w v s
  | .bufRead a n => hostBufRead a n s
  | .bufWrite a bytes => hostBufWrite a bytes s
  | .publish => hostPublish s
  | .acquire => .next (hostAcquire s)
  | .settle a => settleByte a s
  | .engine => engineTurn s
  | .reset => .next (resetEvent s)
  | .secondHost => .refused .secondHost

/-- The next event of State.inputs; with none left the engine has its turn (R105's fairness, log 2). -/
def advance (s : State) : Host.Outcome State Fault Refusal :=
  match s.inputs with
  | [] => engineTurn s
  | e :: rest => runEvent e { s with inputs := rest }

end Sys2Proof.Machine
end

