-- ==== Sys2Proof/Machine/Step.lean ====
section
/-! DEFINITION. One step of the machine, and the placing of a command word for the next one. -/

namespace Sys2Proof.Machine

/-- One step: one event of 40_command_interface.md R110. -/
def step (s : State) : Host.Outcome State Fault Refusal := advance s

/-- The block fetches nothing (10_state.md R34): a command is run by a write of CMD and then the engine step. So the
word is put in flight as R104's issue does, and the engine is given the next turn (log 3). -/
def State.withFetchWord (s : State) (nbits w : Nat) : State := placeCommand (BitVec.ofNat 32 (w % 2 ^ nbits)) s

end Sys2Proof.Machine
end

