-- ==== Sys2Proof/Machine/Program.lean ====
section
/-! DEFINITION. The host-program forms of 30_encoding.md R81 and the pseudo-instructions of R82, as lists of events. -/

namespace Sys2Proof.Machine

/-- `WR <reg>, <v>`: a 32-bit write at REG_BASE + offset (R81). -/
def Event.wr (p : Platform) (r : Reg) (v : Word) : Event := .regWrite (p.regBase + r.offset) .w32 v

/-- `RD <reg>`: a 32-bit read at REG_BASE + offset (R81). -/
def Event.rd (p : Platform) (r : Reg) : Event := .regRead (p.regBase + r.offset) .w32

/-- ACK: WR STATUS, 0x2 (R82). -/
def ackEvents (p : Platform) : List Event := [Event.wr p .status 0x2#32]

/-- POLL: `early` reads of STATUS before the engine step, the engine step, and the read that returns DONE = 1 (R82). -/
def pollEvents (p : Platform) (early : Nat) : List Event :=
  List.replicate early (Event.rd p .status) ++ [.engine, Event.rd p .status]

/-- The argument writes, the CMD write and the POLL of the pseudo-instructions ENCODE and DECODE (R82). -/
def commandEvents (p : Platform) (i : Instr) (src len dst cap : Word) (early : Nat) : List Event :=
  [Event.wr p .srcAddr src, Event.wr p .srcLen len, Event.wr p .dstAddr dst, Event.wr p .dstCap cap,
    Event.wr p .cmd (encodeCmd i)] ++ pollEvents p early

/-- `ENCODE src, n, dst, cap` (R82). -/
def encodeEvents (p : Platform) (src n dst cap : Word) (early : Nat) : List Event :=
  commandEvents p (.encode true true) src n dst cap early

/-- `DECODE src, len, dst, cap` (R82). -/
def decodeEvents (p : Platform) (src len dst cap : Word) (early : Nat) : List Event :=
  commandEvents p (.decode true true) src len dst cap early

end Sys2Proof.Machine
end

