-- ==== Sys2Proof/Safety.lean ====
section
/-! DEFINITION. What a safe run is, and the invariant of the machine. -/

namespace Sys2Proof.Machine

/-- The run of `k` steps from `s` reaches a state: neither mark of 10_state.md R39 is set on the way. -/
def State.safeFor (k : Nat) (s : State) : Prop := ∃ t, Sys2Proof.core.run k s = .next t

/-- What holds of every state a run from reset reaches, and what every step keeps. -/
structure State.Inv (s : State) : Prop where
  /-- AW is 1..32 and REG_BASE is aligned (00_scope.md R7). -/
  platWf : s.plat.wf = true
  /-- Memory keeps its canonical form. -/
  memWf : s.mem.wf = true
  /-- Every written byte has storage (20_memory.md R51, R56). -/
  memBacked : ∀ c ∈ s.mem, s.plat.valid c.1 = true
  /-- Host writes the engine does not see yet: one a byte, with storage, and only where HostOrdering lets there be any
  (20_memory.md R62). -/
  unseenSorted : Memory.sorted s.unseen = true
  unseenBacked : ∀ c ∈ s.unseen, s.plat.valid c.1 = true
  unseenOnlyOnFence : s.plat.ordering.toEngine = .atOnce → s.unseen = []
  /-- The host's copy of memory is canonical, and kept only where the host may see older bytes (R62). -/
  hostMemWf : s.hostMem.wf = true
  hostMemOnlyOnFence : s.plat.ordering.toHost = .atOnce → s.hostMem = []
  /-- SRC_ADDR and DST_ADDR hold AW bits (10_state.md R28, R30). -/
  srcFits : s.srcAddr.toNat < 2 ^ s.plat.aw
  dstFits : s.dstAddr.toNat < 2 ^ s.plat.aw
  /-- A command in flight has not been reported (R23, R24, 40_command_interface.md R104). -/
  notBoth : ¬(s.busy = true ∧ s.done = true)
  /-- The error codes 6..15 are never raised (60_exceptions.md R211). -/
  errKnown : s.err.toNat ≤ 5
  /-- After a failed command RESULT holds 2^32 - ERR (10_state.md R27). -/
  resultOfErr : s.err ≠ 0#4 → s.result = BitVec.ofNat 32 (2 ^ 32 - s.err.toNat)
  /-- The buffers of a command in flight are closed to the host (70_reset_and_hazards.md R245), and stay what they
  were at issue (10_state.md R36). -/
  inFlightGuarded : s.busy = true → footprint s ∈ s.windows

/-- The n addresses from `a` up are all valid (20_memory.md R56). -/
def validRange (p : Platform) (a n : Nat) : Prop := ∀ i, i < n → p.valid (a + i) = true

/-- The n addresses from `a` up and the k from `b` up have none in common (R67). -/
def apart (a n b k : Nat) : Prop := ∀ x, a ≤ x → x < a + n → x < b ∨ b + k ≤ x

/-- What no command writes: everything but STATUS.BUSY, DONE and ERR, RESULT, and buffer memory (60_exceptions.md R219). The
host's own writes and what it last saw of memory are among it (20_memory.md R62). -/
def engineFrame (s t : State) : Prop :=
  t.plat = s.plat ∧ t.cmd = s.cmd ∧ t.ovr = s.ovr ∧ t.srcAddr = s.srcAddr ∧ t.srcLen = s.srcLen ∧
    t.dstAddr = s.dstAddr ∧ t.dstCap = s.dstCap ∧ t.unseen = s.unseen ∧ t.hostMem = s.hostMem ∧
    t.windows = s.windows ∧ t.inputs = s.inputs ∧ t.draws = s.draws ∧ t.rdData = s.rdData ∧ t.bufData = s.bufData

/-- A completion reported: BUSY = 0, DONE = 1, and the given ERR and RESULT (40_command_interface.md R106). -/
def reports (t : State) (err : BitVec 4) (result : Nat) : Prop :=
  t.busy = false ∧ t.done = true ∧ t.err = err ∧ t.result.toNat = result

/-- Every byte outside the k addresses from `b` up reads as before. -/
def sameOutside (m m' : Memory) (b k : Nat) : Prop := ∀ a, a < b ∨ b + k ≤ a → m'.byteAt a = m.byteAt a

/-- Every byte reads as before. -/
def sameBytes (m m' : Memory) : Prop := ∀ a, m'.byteAt a = m.byteAt a

end Sys2Proof.Machine
end

