-- ==== Sys2Proof/Certificates/Slice0/Obligations.lean ====
section
/-! DEFINITION. The statements for the provers, in the order of the spec's files. -/

open Sys2Proof Sys2Proof.Machine

/-- The codes of the table of 41_alphabet_lut.md R120, by slice. -/
def Sys2Proof.alphaTable : List Byte :=
  [0x41, 0x42, 0x43, 0x44, 0x45, 0x46, 0x47, 0x48, 0x49, 0x4A, 0x4B, 0x4C, 0x4D, 0x4E, 0x4F, 0x50] ++
  [0x51, 0x52, 0x53, 0x54, 0x55, 0x56, 0x57, 0x58, 0x59, 0x5A, 0x61, 0x62, 0x63, 0x64, 0x65, 0x66] ++
  [0x67, 0x68, 0x69, 0x6A, 0x6B, 0x6C, 0x6D, 0x6E, 0x6F, 0x70, 0x71, 0x72, 0x73, 0x74, 0x75, 0x76] ++
  [0x77, 0x78, 0x79, 0x7A, 0x30, 0x31, 0x32, 0x33, 0x34, 0x35, 0x36, 0x37, 0x38, 0x39, 0x2B, 0x2F]

/-! ### Command words (30_encoding.md) -/

/-- A few words written out from R71 and R73. -/
def Obligations.CommandWordsDecode : Prop :=
  decodeCmd 0b00000000000000000000001100000001#32 = .ok (.encode true true) ∧
  decodeCmd 0b00000000000000000000000100000001#32 = .ok (.encode true false) ∧
  decodeCmd 0b00000000000000000000001100000010#32 = .ok (.decode true true) ∧
  decodeCmd 0b00000000000000000000001000000010#32 = .ok (.decode false true) ∧
  decodeCmd 0b00000000000000000000001100000011#32 = .error .reservedOp ∧
  decodeCmd 0b10000000000000000000001100000010#32 = .error .reservedBits

/-- CmdDecode of R74 over all 2^32 words, the fields read as numbers. -/
def Obligations.DecodingIsTotalByFields : Prop :=
  ∀ w : Word,
    (w.toNat / 1024 ≠ 0 ∨ w.toNat / 16 % 16 ≠ 0 → decodeCmd w = .error .reservedBits) ∧
    (w.toNat / 1024 = 0 → w.toNat / 16 % 16 = 0 →
      (w.toNat % 16 = 1 → decodeCmd w = .ok (.encode (w.toNat / 256 % 2 == 1) (w.toNat / 512 % 2 == 1))) ∧
      (w.toNat % 16 = 2 → decodeCmd w = .ok (.decode (w.toNat / 256 % 2 == 1) (w.toNat / 512 % 2 == 1))) ∧
      (w.toNat % 16 ≠ 1 → w.toNat % 16 ≠ 2 → decodeCmd w = .error .reservedOp))

/-- Decoding and encoding agree both ways: a command has one word and a word at most one command (R71, R74). -/
def Obligations.CommandWordRoundTrip : Prop :=
  (∀ i : Instr, i.wf = true → decodeCmd (encodeCmd i) = .ok i) ∧
  (∀ (w : Word) (i : Instr), decodeCmd w = .ok i → encodeCmd i = w)

/-- The engine's turn with a command in flight runs the command CMD decodes to; so does the step after a word is
placed by withFetchWord (40_command_interface.md R105, R107; log 2, log 3). -/
def Obligations.StepRunsDecodedCommand : Prop :=
  (∀ (s : State) (i : Instr), s.busy = true → decodeCmd s.cmd = .ok i →
    (s.inputs = [] → step s = exec i s) ∧
    (∀ rest, s.inputs = .engine :: rest → step s = exec i { s with inputs := rest })) ∧
  (∀ (s : State) (w : Nat) (i : Instr), decodeTableWord 32 w = some i →
    step (s.withFetchWord 32 w) = exec i (issue (BitVec.ofNat 32 (w % 2 ^ 32)) s))

/-- A Reserved word in flight completes with ECMD at the engine's turn, whatever the argument registers and memory hold
(60_exceptions.md R215): with the engine event next, or with no event left, where the turn is the engine's by the model's
choice (log 2). -/
def Obligations.ReservedWordCompletesWithEcmd : Prop :=
  ∀ (s : State) (rest : List Event), s.busy = true → s.inputs = .engine :: rest ∨ (s.inputs = [] ∧ rest = []) →
    (s.cmd.toNat / 1024 ≠ 0 ∨ s.cmd.toNat / 16 % 16 ≠ 0 ∨ (s.cmd.toNat % 16 ≠ 1 ∧ s.cmd.toNat % 16 ≠ 2)) →
    ∃ t, step s = .next t ∧ engineFrame { s with inputs := rest } t ∧ reports t 4#4 0xFFFFFFFC ∧ t.mem = s.mem

/-! ### The ROMs (41_alphabet_lut.md) -/

/-- The ROM ALPHA holds the table of R120. -/
def Obligations.AlphabetRomHoldsTable : Prop :=
  alphaTable.length = 64 ∧ ∀ s : Slice, alphaTable[s.toNat]? = some (alpha s)

/-- DLUT is the exact inverse of ALPHA over the 64 symbols, and INVALID elsewhere (R123). -/
def Obligations.DecodeRomInvertsAlphabet : Prop :=
  (∀ s : Slice, dlut (alpha s) = some s) ∧
  (∀ (c : Byte) (s : Slice), dlut c = some s → alpha s = c) ∧
  (∀ c : Byte, (∀ s : Slice, alpha s ≠ c) → dlut c = none)

/-- The special bytes of R124: '=', TERM, whitespace, '-', '_' and 0x80..0xFF are INVALID, and the unpacker knows '='
by comparison. -/
def Obligations.SpecialBytesAreInvalid : Prop :=
  (∀ c ∈ ([0x3D, 0x00, 0x09, 0x0A, 0x0D, 0x20, 0x2D, 0x5F] : List Byte), dlut c = none) ∧
  (∀ c : Byte, 0x80 ≤ c.toNat → dlut c = none) ∧
  (∀ c : Byte, isPad c = true ↔ c = 0x3D#8)

/-! ### The encoder (42_encode.md) -/

/-- The group packer, slice by slice from the bits of the bytes (30_encoding.md R78, R140, R142). -/
def Obligations.EncoderGroupFromByteBits : Prop :=
  (∀ b0 b1 b2 : Byte, (encWindow b0 b1 b2).toNat = b0.toNat * 2 ^ 16 + b1.toNat * 2 ^ 8 + b2.toNat) ∧
  (∀ b0 b1 b2 : Byte, encGroup3 b0 b1 b2 =
    [alpha (b0.extractLsb' 2 6), alpha (b0.extractLsb' 0 2 ++ b1.extractLsb' 4 4 : BitVec (2 + 4)),
      alpha (b1.extractLsb' 0 4 ++ b2.extractLsb' 6 2 : BitVec (4 + 2)), alpha (b2.extractLsb' 0 6)]) ∧
  (∀ b0 b1 : Byte, encGroup2 b0 b1 =
    [alpha (b0.extractLsb' 2 6), alpha (b0.extractLsb' 0 2 ++ b1.extractLsb' 4 4 : BitVec (2 + 4)),
      alpha (b1.extractLsb' 0 4 ++ 0#2 : BitVec (4 + 2)), 0x3D#8]) ∧
  (∀ b0 : Byte, encGroup1 b0 =
    [alpha (b0.extractLsb' 2 6), alpha (b0.extractLsb' 0 2 ++ 0#4 : BitVec (2 + 4)), 0x3D#8, 0x3D#8])

/-- The length law of R144, and the number of '=' characters. -/
def Obligations.EncodedTextLengthLaw : Prop :=
  ∀ raw : List Byte,
    (encodeBytes raw).length = 4 * ((raw.length + 2) / 3) ∧
    (encodeBytes raw).count 0x3D#8 = (3 - raw.length % 3) % 3

/-- What an encoded text holds (41_alphabet_lut.md R126): alphabet characters, and '=' in its last two places only;
never TERM. -/
def Obligations.EncodedTextCharacters : Prop :=
  (∀ s : Slice, alpha s ≠ 0x3D#8 ∧ alpha s ≠ 0x00#8) ∧
  (∀ (raw : List Byte) (c : Byte), c ∈ encodeBytes raw → c ≠ 0x00#8 ∧ (c = 0x3D#8 ∨ ∃ s, alpha s = c)) ∧
  (∀ (raw : List Byte) (i : Nat), i + 2 < (encodeBytes raw).length → (encodeBytes raw)[i]? ≠ some 0x3D#8)

/-- ENCODE completes, for every buffer of every length: its result, the bytes it writes, and its frame (R145, R147,
R149). -/
def Obligations.EncodeCompletes : Prop :=
  ∀ s : State,
    4 * ((s.srcLen.toNat + 2) / 3) + 1 ≤ s.dstCap.toNat →
    validRange s.plat s.srcAddr.toNat s.srcLen.toNat →
    validRange s.plat s.dstAddr.toNat (4 * ((s.srcLen.toNat + 2) / 3) + 1) →
    apart s.srcAddr.toNat s.srcLen.toNat s.dstAddr.toNat (4 * ((s.srcLen.toNat + 2) / 3) + 1) →
    ∃ t, exec (.encode true true) s = .next t ∧ engineFrame s t ∧
      reports t 0#4 (4 * ((s.srcLen.toNat + 2) / 3)) ∧
      t.mem.bytesAt s.dstAddr.toNat (4 * ((s.srcLen.toNat + 2) / 3) + 1) =
        encodeBytes (s.mem.bytesAt s.srcAddr.toNat s.srcLen.toNat) ++ [0x00#8] ∧
      sameOutside s.mem t.mem s.dstAddr.toNat (4 * ((s.srcLen.toNat + 2) / 3) + 1)

/-- ENCODE's capacity rule on exact integers: ECAP below the need, and the bounds R146 names. -/
def Obligations.EncodeShortCapacity : Prop :=
  (∀ s : State, s.dstCap.toNat < 4 * ((s.srcLen.toNat + 2) / 3) + 1 →
    ∃ t, exec (.encode true true) s = .next t ∧ engineFrame s t ∧ reports t 3#4 0xFFFFFFFD ∧ t.mem = s.mem) ∧
  (∀ (s t : State), exec (.encode true true) s = .next t → t.err = 0#4 → s.srcLen.toNat ≤ 3221225469) ∧
  encodeNeed 0xFFFFFFFF = 5726623061 ∧ encodeNeed 3221225469 = 4294967293

/-- ENCODE of n = 0 (R148): TERM alone with capacity 1 or more, ECAP with none, EARG with no source. -/
def Obligations.EncodeEmptyInput : Prop :=
  (∀ s : State, s.srcLen = 0#32 → 1 ≤ s.dstCap.toNat → s.plat.valid s.dstAddr.toNat = true →
    ∃ t, exec (.encode true true) s = .next t ∧ engineFrame s t ∧ reports t 0#4 0 ∧
      t.mem.byteAt s.dstAddr.toNat = 0x00#8 ∧ sameOutside s.mem t.mem s.dstAddr.toNat 1) ∧
  (∀ s : State, s.srcLen = 0#32 → s.dstCap = 0#32 →
    ∃ t, exec (.encode true true) s = .next t ∧ engineFrame s t ∧ reports t 3#4 0xFFFFFFFD ∧ t.mem = s.mem) ∧
  (∀ (s : State) (dp : Bool), s.srcLen = 0#32 →
    ∃ t, exec (.encode false dp) s = .next t ∧ engineFrame s t ∧ reports t 1#4 0xFFFFFFFF ∧ t.mem = s.mem)

/-- ENCODE's outcome does not depend on the bytes' values (R152 (c)): with any other memory it ends the same way, with
the same code and count. -/
def Obligations.EncodeOutcomeIgnoresByteValues : Prop :=
  ∀ (s : State) (m : Memory) (sp dp : Bool),
    (∀ t, exec (.encode sp dp) s = .next t →
      ∃ u, exec (.encode sp dp) { s with mem := m } = .next u ∧ u.err = t.err ∧ u.result = t.result) ∧
    (∀ f, exec (.encode sp dp) s = .fault f → exec (.encode sp dp) { s with mem := m } = .fault f) ∧
    (∀ r, exec (.encode sp dp) s = .refused r → exec (.encode sp dp) { s with mem := m } = .refused r)

/-! ### The decoder (43_decode.md) -/

/-- The group unpacker (R175 to R177): the source's byte expressions modulo 256, and what padding and an invalid
character do. -/
def Obligations.DecoderGroupRule : Prop :=
  ∀ (c0 c1 c2 c3 : Byte),
    (∀ v0 v1 v2 v3 : Slice, dlut c0 = some v0 → dlut c1 = some v1 → dlut c2 = some v2 → dlut c3 = some v3 →
      decGroup c0 c1 c2 c3 =
        { ok := true, stop := false,
          out := [BitVec.ofNat 8 ((v0.toNat <<< 2) ||| (v1.toNat >>> 4)),
            BitVec.ofNat 8 ((v1.toNat <<< 4) ||| (v2.toNat >>> 2)), BitVec.ofNat 8 ((v2.toNat <<< 6) ||| v3.toNat)] }) ∧
    (∀ v0 v1 v2 : Slice, dlut c0 = some v0 → dlut c1 = some v1 → dlut c2 = some v2 → c3 = 0x3D#8 →
      decGroup c0 c1 c2 c3 =
        { ok := true, stop := true,
          out := [BitVec.ofNat 8 ((v0.toNat <<< 2) ||| (v1.toNat >>> 4)),
            BitVec.ofNat 8 ((v1.toNat <<< 4) ||| (v2.toNat >>> 2))] }) ∧
    (∀ v0 v1 : Slice, dlut c0 = some v0 → dlut c1 = some v1 → c2 = 0x3D#8 → (dlut c3 ≠ none ∨ c3 = 0x3D#8) →
      decGroup c0 c1 c2 c3 =
        { ok := true, stop := true, out := [BitVec.ofNat 8 ((v0.toNat <<< 2) ||| (v1.toNat >>> 4))] }) ∧
    (dlut c0 = none ∨ dlut c1 = none ∨ (dlut c2 = none ∧ c2 ≠ 0x3D#8) ∨ (dlut c3 = none ∧ c3 ≠ 0x3D#8) →
      decGroup c0 c1 c2 c3 = { ok := false, stop := true, out := [] })

/-- An invalid group ends the decoding with the bytes of the complete groups before it and none of its own, wherever
its invalid character stands (R178). Every complete group is the encoding of its three bytes. -/
def Obligations.InvalidGroupStopsDecoding : Prop :=
  (∀ (raw rest : List Byte) (c0 c1 c2 c3 : Byte), raw.length % 3 = 0 → (decGroup c0 c1 c2 c3).ok = false →
    decodeGroups (encodeBytes raw ++ c0 :: c1 :: c2 :: c3 :: rest) = raw) ∧
  decodeGroups [0x41, 0x41, 0x41, 0x21, 0x41, 0x41, 0x41, 0x41] = [] ∧
  decodeGroups [0x41, 0x41, 0x41, 0x41, 0x21, 0x41, 0x41, 0x41] = [0x00, 0x00, 0x00]

/-- A valid group with padding ends the decoding after its own bytes, even where groups follow (R179). -/
def Obligations.PaddedGroupStopsDecoding : Prop :=
  (∀ (raw rest : List Byte) (c0 c1 c2 c3 : Byte), raw.length % 3 = 0 → (decGroup c0 c1 c2 c3).ok = true →
    (c2 = 0x3D#8 ∨ c3 = 0x3D#8) →
    decodeGroups (encodeBytes raw ++ c0 :: c1 :: c2 :: c3 :: rest) = raw ++ (decGroup c0 c1 c2 c3).out) ∧
  decodeGroups [0x41, 0x41, 0x3D, 0x3D, 0x41, 0x41, 0x41, 0x41] = [0x00]

/-- The low bits of the last character before padding do not matter (R180). -/
def Obligations.PaddingBitsAreNotChecked : Prop :=
  (∀ (c0 c1 d1 c3 : Byte) (v w : Slice), dlut c1 = some v → dlut d1 = some w → v.toNat / 16 = w.toNat / 16 →
    decGroup c0 c1 0x3D#8 c3 = decGroup c0 d1 0x3D#8 c3) ∧
  (∀ (c0 c1 c2 d2 : Byte) (v w : Slice), dlut c2 = some v → dlut d2 = some w → v.toNat / 4 = w.toNat / 4 →
    decGroup c0 c1 c2 0x3D#8 = decGroup c0 c1 d2 0x3D#8) ∧
  decGroup 0x2F#8 0x78#8 0x3D#8 0x3D#8 = decGroup 0x2F#8 0x77#8 0x3D#8 0x3D#8

/-- The trailing padding count of R185: contiguous from the end, at most 2. -/
def Obligations.TrailingPaddingCount : Prop :=
  ∀ (text : List Byte) (c d : Byte),
    (d ≠ 0x3D#8 → trailingPad (text ++ [c, d]) = 0) ∧
    (d = 0x3D#8 → c ≠ 0x3D#8 → trailingPad (text ++ [c, d]) = 1) ∧
    (d = 0x3D#8 → c = 0x3D#8 → trailingPad (text ++ [c, d]) = 2)

/-- Decoding an encoded text gives the raw bytes back, with every length and every byte (R194's argument). -/
def Obligations.DecodingInvertsEncoding : Prop :=
  ∀ raw : List Byte, decodeGroups (encodeBytes raw) = raw

/-- DECODE completes on every text of four characters or more, whatever its bytes: its result, the bytes it writes,
and its frame (R189, R190, R196). -/
def Obligations.DecodeCompletes : Prop :=
  ∀ (s : State) (len : Nat) (text : List Byte),
    len = effectiveLength s.mem s.srcAddr.toNat s.srcLen.toNat → 4 ≤ len →
    text = s.mem.bytesAt s.srcAddr.toNat (4 * (len / 4)) →
    len / 4 * 3 - trailingPad text ≤ s.dstCap.toNat →
    validRange s.plat s.srcAddr.toNat (min s.srcLen.toNat (len + 1)) →
    validRange s.plat s.dstAddr.toNat (decodeGroups text).length →
    apart s.srcAddr.toNat (min s.srcLen.toNat (len + 1)) s.dstAddr.toNat (len / 4 * 3 - trailingPad text) →
    ∃ t, exec (.decode true true) s = .next t ∧ engineFrame s t ∧ reports t 0#4 (decodeGroups text).length ∧
      t.mem.bytesAt s.dstAddr.toNat (decodeGroups text).length = decodeGroups text ∧
      sameOutside s.mem t.mem s.dstAddr.toNat (decodeGroups text).length

/-- DECODE of an empty text succeeds with 0 bytes, whatever DST_CAP holds (R182). -/
def Obligations.DecodeEmptyText : Prop :=
  ∀ s : State, effectiveLength s.mem s.srcAddr.toNat s.srcLen.toNat = 0 →
    validRange s.plat s.srcAddr.toNat (min s.srcLen.toNat 1) →
    ∃ t, exec (.decode true true) s = .next t ∧ engineFrame s t ∧ reports t 0#4 0 ∧ t.mem = s.mem

/-- DECODE of a text of effective length 1, 2 or 3 fails with ELEN, and nothing else does (60_exceptions.md R213). -/
def Obligations.DecodeUnusableLength : Prop :=
  (∀ s : State, 1 ≤ effectiveLength s.mem s.srcAddr.toNat s.srcLen.toNat →
    effectiveLength s.mem s.srcAddr.toNat s.srcLen.toNat ≤ 3 →
    validRange s.plat s.srcAddr.toNat
      (min s.srcLen.toNat (effectiveLength s.mem s.srcAddr.toNat s.srcLen.toNat + 1)) →
    ∃ t, exec (.decode true true) s = .next t ∧ engineFrame s t ∧ reports t 2#4 0xFFFFFFFE ∧ t.mem = s.mem) ∧
  (∀ (i : Instr) (s t : State), exec i s = .next t → t.err = 2#4 →
    i = .decode true true ∧ 1 ≤ effectiveLength s.mem s.srcAddr.toNat s.srcLen.toNat ∧
      effectiveLength s.mem s.srcAddr.toNat s.srcLen.toNat ≤ 3)

/-- DECODE with a capacity below the expected length fails with ECAP before writing (R187). -/
def Obligations.DecodeShortCapacity : Prop :=
  ∀ (s : State) (len : Nat), len = effectiveLength s.mem s.srcAddr.toNat s.srcLen.toNat → 4 ≤ len →
    validRange s.plat s.srcAddr.toNat (min s.srcLen.toNat (len + 1)) →
    s.dstCap.toNat < len / 4 * 3 - trailingPad (s.mem.bytesAt s.srcAddr.toNat (4 * (len / 4))) →
    ∃ t, exec (.decode true true) s = .next t ∧ engineFrame s t ∧ reports t 3#4 0xFFFFFFFD ∧ t.mem = s.mem

/-- DECODE never writes more than the expected length, and never past DST_CAP (R193). -/
def Obligations.DecodeNeverOverruns : Prop :=
  (∀ text : List Byte, 4 ≤ text.length → text.length % 4 = 0 →
    (decodeGroups text).length ≤ text.length / 4 * 3 - trailingPad text) ∧
  (∀ (sp dp : Bool) (s t : State), exec (.decode sp dp) s = .next t → t.err = 0#4 →
    t.result.toNat ≤ s.dstCap.toNat ∧ sameOutside s.mem t.mem s.dstAddr.toNat s.dstCap.toNat)

/-- A text of effective length 4k + 1, 4k + 2 or 4k + 3 decodes as its first 4k characters do, for k of 1 or more; one
of effective length 1 to 3 fails with ELEN (R195). -/
def Obligations.DecodeTruncates : Prop :=
  (∀ (s t : State) (k r : Nat), 1 ≤ k → 1 ≤ r → r ≤ 3 →
    effectiveLength s.mem s.srcAddr.toNat s.srcLen.toNat = 4 * k + r → exec (.decode true true) s = .next t →
    exec (.decode true true) { s with srcLen := BitVec.ofNat 32 (4 * k) } =
      .next { t with srcLen := BitVec.ofNat 32 (4 * k) }) ∧
  (∀ s t : State, 1 ≤ effectiveLength s.mem s.srcAddr.toNat s.srcLen.toNat →
    effectiveLength s.mem s.srcAddr.toNat s.srcLen.toNat ≤ 3 → exec (.decode true true) s = .next t → t.err = 2#4)

/-- The round trip of R194 through buffer memory: DECODE of the text a successful ENCODE wrote gives the raw bytes
back, in any later state in which that text still stands. -/
def Obligations.RoundTripThroughMemory : Prop :=
  ∀ s t u : State,
    exec (.encode true true) s = .next t → t.err = 0#4 →
    u.plat = s.plat → u.srcAddr = s.dstAddr →
    (∀ x, s.dstAddr.toNat ≤ x → x ≤ s.dstAddr.toNat + 4 * ((s.srcLen.toNat + 2) / 3) → u.mem.byteAt x = t.mem.byteAt x) →
    4 * ((s.srcLen.toNat + 2) / 3) ≤ u.srcLen.toNat → s.srcLen.toNat ≤ u.dstCap.toNat →
    apart s.dstAddr.toNat (4 * ((s.srcLen.toNat + 2) / 3) + 1) u.dstAddr.toNat s.srcLen.toNat →
    validRange u.plat u.dstAddr.toNat s.srcLen.toNat →
    ∃ v, exec (.decode true true) u = .next v ∧ reports v 0#4 s.srcLen.toNat ∧
      v.mem.bytesAt u.dstAddr.toNat s.srcLen.toNat = s.mem.bytesAt s.srcAddr.toNat s.srcLen.toNat

/-! ### What both commands have in common (60_exceptions.md, 20_memory.md) -/

/-- An absent reference fails with EARG, whatever the other registers and memory hold, and nothing else does: no empty
buffer or text is such an error (R212). -/
def Obligations.AbsentReferenceFailsWithEarg : Prop :=
  (∀ (i : Instr) (s : State), (i.sp = false ∨ i.dp = false) →
    ∃ t, exec i s = .next t ∧ engineFrame s t ∧ reports t 1#4 0xFFFFFFFF ∧ t.mem = s.mem) ∧
  (∀ (i : Instr) (s t : State), exec i s = .next t → t.err = 1#4 → i.sp = false ∨ i.dp = false)

/-- The frame of both commands (R219): BUSY, DONE, ERR, RESULT and the bytes of R211's row, and nothing else. -/
def Obligations.CommandsWriteNothingElse : Prop :=
  ∀ (i : Instr) (s t : State), exec i s = .next t →
    engineFrame s t ∧ t.busy = false ∧ t.done = true ∧
    (t.err ≠ 0#4 → sameBytes s.mem t.mem ∧ t.result.toNat = 2 ^ 32 - t.err.toNat) ∧
    (t.err = 0#4 → i = .encode true true →
      t.result.toNat = 4 * ((s.srcLen.toNat + 2) / 3) ∧ sameOutside s.mem t.mem s.dstAddr.toNat (t.result.toNat + 1)) ∧
    (t.err = 0#4 → i = .decode true true → sameOutside s.mem t.mem s.dstAddr.toNat t.result.toNat)

/-- A command's code, count and written bytes depend on the bytes of its read set alone (R150, R191, R66): the RESULT + 1
bytes that ENCODE writes (R147), the RESULT bytes that DECODE writes (R190). How bytes of DECODE's text without storage
count in the read set is log 22. -/
def Obligations.CommandsReadOnlyTheirReadSet : Prop :=
  ∀ (i : Instr) (s : State) (m : Memory), decodeCmd s.cmd = .ok i →
    (∀ x, (footprint s).reads x = true → m.byteAt x = s.mem.byteAt x) →
    (∀ t, exec i s = .next t →
      ∃ u, exec i { s with mem := m } = .next u ∧ u.err = t.err ∧ u.result = t.result ∧
        (t.err = 0#4 → i = .encode true true →
          u.mem.bytesAt s.dstAddr.toNat (t.result.toNat + 1) = t.mem.bytesAt s.dstAddr.toNat (t.result.toNat + 1)) ∧
        (t.err = 0#4 → i = .decode true true →
          u.mem.bytesAt s.dstAddr.toNat t.result.toNat = t.mem.bytesAt s.dstAddr.toNat t.result.toNat)) ∧
    (∀ f, exec i s = .fault f → exec i { s with mem := m } = .fault f) ∧
    (∀ r, exec i s = .refused r → exec i { s with mem := m } = .refused r)

/-- Nothing carries over from one command to the next: the code, the count and the memory a command leaves depend on
the platform, the argument registers and memory alone (90_conflicts.md C5). -/
def Obligations.EarlierCommandsLeaveNoTrace : Prop :=
  ∀ (i : Instr) (s s' t : State),
    s'.plat = s.plat → s'.mem = s.mem → s'.srcAddr = s.srcAddr → s'.srcLen = s.srcLen → s'.dstAddr = s.dstAddr →
    s'.dstCap = s.dstCap → exec i s = .next t →
    ∃ t', exec i s' = .next t' ∧ t'.mem = t.mem ∧ t'.err = t.err ∧ t'.result = t.result

/-- Overlapping read and write sets are refused, exactly when the command passes its checks (20_memory.md R67). -/
def Obligations.OverlapIsRefused : Prop :=
  (∀ s : State, exec (.encode true true) s = .refused .overlap ↔
    4 * ((s.srcLen.toNat + 2) / 3) + 1 ≤ s.dstCap.toNat ∧
    ¬apart s.srcAddr.toNat s.srcLen.toNat s.dstAddr.toNat (4 * ((s.srcLen.toNat + 2) / 3) + 1)) ∧
  (∀ (s : State) (len : Nat) (text : List Byte), len = effectiveLength s.mem s.srcAddr.toNat s.srcLen.toNat →
    text = s.mem.bytesAt s.srcAddr.toNat (4 * (len / 4)) →
    (exec (.decode true true) s = .refused .overlap ↔
      validRange s.plat s.srcAddr.toNat (min s.srcLen.toNat (len + 1)) ∧ 4 ≤ len ∧
      len / 4 * 3 - trailingPad text ≤ s.dstCap.toNat ∧
      ¬apart s.srcAddr.toNat (min s.srcLen.toNat (len + 1)) s.dstAddr.toNat (len / 4 * 3 - trailingPad text))) ∧
  (∀ (i : Instr) (s : State) (r : Refusal), exec i s = .refused r → r = .overlap ∧ i.sp = true ∧ i.dp = true)

/-- An engine access to an invalid address, read or written, faults with that address (R56, R216); which of several the
fault names, and that ENCODE's overlap comes first, are the model's choices (log 8, log 9). -/
def Obligations.InvalidAddressFaults : Prop :=
  (∀ s : State, 4 * ((s.srcLen.toNat + 2) / 3) + 1 ≤ s.dstCap.toNat →
    apart s.srcAddr.toNat s.srcLen.toNat s.dstAddr.toNat (4 * ((s.srcLen.toNat + 2) / 3) + 1) →
    ¬(validRange s.plat s.srcAddr.toNat s.srcLen.toNat ∧
      validRange s.plat s.dstAddr.toNat (4 * ((s.srcLen.toNat + 2) / 3) + 1)) →
    ∃ a, exec (.encode true true) s = .fault (.emem a)) ∧
  (∀ s : State,
    ¬validRange s.plat s.srcAddr.toNat
      (min s.srcLen.toNat (effectiveLength s.mem s.srcAddr.toNat s.srcLen.toNat + 1)) →
    ∃ a, exec (.decode true true) s = .fault (.emem a)) ∧
  (∀ (s : State) (len : Nat) (text : List Byte), len = effectiveLength s.mem s.srcAddr.toNat s.srcLen.toNat → 4 ≤ len →
    text = s.mem.bytesAt s.srcAddr.toNat (4 * (len / 4)) →
    len / 4 * 3 - trailingPad text ≤ s.dstCap.toNat →
    validRange s.plat s.srcAddr.toNat (min s.srcLen.toNat (len + 1)) →
    apart s.srcAddr.toNat (min s.srcLen.toNat (len + 1)) s.dstAddr.toNat (len / 4 * 3 - trailingPad text) →
    ¬validRange s.plat s.dstAddr.toNat (decodeGroups text).length →
    ∃ a, exec (.decode true true) s = .fault (.emem a) ∧ s.dstAddr.toNat ≤ a ∧
      a < s.dstAddr.toNat + (decodeGroups text).length) ∧
  (∀ (i : Instr) (s : State) (f : Fault), exec i s = .fault f →
    ∃ a, f = .emem a ∧ (2 ^ s.plat.aw ≤ a ∨ s.plat.admits a = false) ∧
      ((s.srcAddr.toNat ≤ a ∧ a < s.srcAddr.toNat + s.srcLen.toNat) ∨
       (s.dstAddr.toNat ≤ a ∧ a < s.dstAddr.toNat + s.dstCap.toNat)))

/-- Completion, code by code: STATUS and RESULT (40_command_interface.md R106, 30_encoding.md R76). -/
def Obligations.CompletionReportsCode : Prop :=
  ∀ (s : State) (n : Nat), s.ovr = false →
    (statusWord (complete .ok n s) = 0x02#32 ∧ (complete .ok n s).result = BitVec.ofNat 32 n) ∧
    (statusWord (complete .earg n s) = 0x12#32 ∧ (complete .earg n s).result = 0xFFFFFFFF#32) ∧
    (statusWord (complete .elen n s) = 0x22#32 ∧ (complete .elen n s).result = 0xFFFFFFFE#32) ∧
    (statusWord (complete .ecap n s) = 0x32#32 ∧ (complete .ecap n s).result = 0xFFFFFFFD#32) ∧
    (statusWord (complete .ecmd n s) = 0x42#32 ∧ (complete .ecmd n s).result = 0xFFFFFFFC#32) ∧
    (statusWord (complete .emem n s) = 0x52#32 ∧ (complete .emem n s).result = 0xFFFFFFFB#32)

/-! ### The register interface (40_command_interface.md, 10_state.md) -/

/-- RD at each offset answers the register (R100), busy or idle, STATUS as the word of 30_encoding.md R75, and changes
nothing of the block; the STATUS read that returns DONE = 1 closes the host's wait (70_reset_and_hazards.md R245). A read
that is not 32 bits wide and aligned is refused. -/
def Obligations.RegisterReadAnswers : Prop :=
  (∀ (s : State) (rest : List Event) (off : Nat) (v : Nat),
    (off, v) ∈ [(0x00, s.cmd.toNat),
      (0x04, s.busy.toNat + 2 * s.done.toNat + 4 * s.ovr.toNat + 16 * s.err.toNat),
      (0x08, s.srcAddr.toNat), (0x0C, s.srcLen.toNat), (0x10, s.dstAddr.toNat), (0x14, s.dstCap.toNat),
      (0x18, s.result.toNat), (0x1C, 0)] →
    s.inputs = .regRead (s.plat.regBase + off) .w32 :: rest →
    step s = .next { s with inputs := rest, rdData := some (BitVec.ofNat 32 v),
                            windows := if off = 0x04 ∧ s.done = true then [] else s.windows }) ∧
  (∀ (s : State) (rest : List Event) (off : Nat) (w : BusWidth), off < 0x20 → (w ≠ .w32 ∨ off % 4 ≠ 0) →
    s.inputs = .regRead (s.plat.regBase + off) w :: rest → step s = .refused .registerAccess)

/-- WR while idle (R101) at each offset, with address registers taken modulo 2^AW; CommandWriteIssues and StatusWriteClears
say what Issue and StatusWrite are. -/
def Obligations.RegisterWriteWhileIdle : Prop :=
  ∀ (s : State) (rest : List Event) (off : Nat) (v : Word), s.busy = false →
    s.inputs = .regWrite (s.plat.regBase + off) .w32 v :: rest →
    (off = 0x00 → step s = .next (issue v { s with inputs := rest })) ∧
    (off = 0x04 → step s = .next (statusWrite v { s with inputs := rest })) ∧
    (off = 0x08 → step s = .next { s with inputs := rest, srcAddr := BitVec.ofNat 32 (v.toNat % 2 ^ s.plat.aw) }) ∧
    (off = 0x0C → step s = .next { s with inputs := rest, srcLen := v }) ∧
    (off = 0x10 → step s = .next { s with inputs := rest, dstAddr := BitVec.ofNat 32 (v.toNat % 2 ^ s.plat.aw) }) ∧
    (off = 0x14 → step s = .next { s with inputs := rest, dstCap := v }) ∧
    (off = 0x18 ∨ off = 0x1C → step s = .next { s with inputs := rest })

/-- Issue (R104): WR CMD while idle, whatever the value, puts the command in flight; ERR, RESULT and OVR stay. -/
def Obligations.CommandWriteIssues : Prop :=
  ∀ (s : State) (rest : List Event) (v : Word), s.busy = false →
    s.inputs = .regWrite s.plat.regBase .w32 v :: rest →
    ∃ t, step s = .next t ∧ t.cmd = v ∧ t.busy = true ∧ t.done = false ∧
      t.err = s.err ∧ t.result = s.result ∧ t.ovr = s.ovr ∧ t.mem = s.mem ∧ t.plat = s.plat ∧
      t.srcAddr = s.srcAddr ∧ t.srcLen = s.srcLen ∧ t.dstAddr = s.dstAddr ∧ t.dstCap = s.dstCap ∧
      t.unseen = s.unseen ∧ t.hostMem = s.hostMem ∧ t.windows = footprint t :: s.windows ∧ t.inputs = rest

/-- WR while busy (R102): the five registers keep their values and OVR is set, a write of STATUS is StatusWrite, the others
have no effect. -/
def Obligations.RegisterWriteWhileBusy : Prop :=
  ∀ (s : State) (rest : List Event) (off : Nat) (v : Word), s.busy = true →
    s.inputs = .regWrite (s.plat.regBase + off) .w32 v :: rest →
    (off ∈ [0x00, 0x08, 0x0C, 0x10, 0x14] → step s = .next { s with inputs := rest, ovr := true }) ∧
    (off = 0x04 → step s = .next (statusWrite v { s with inputs := rest })) ∧
    (off ∈ [0x18, 0x1C] → step s = .next { s with inputs := rest })

/-- StatusWrite (R103), busy or not: DONE and OVR are cleared where the value holds a 1, and nothing else changes. -/
def Obligations.StatusWriteClears : Prop :=
  ∀ (s : State) (rest : List Event) (v : Word),
    s.inputs = .regWrite (s.plat.regBase + 0x04) .w32 v :: rest →
    step s = .next { s with inputs := rest,
                            done := if v.toNat / 2 % 2 = 1 then false else s.done,
                            ovr := if v.toNat / 4 % 2 = 1 then false else s.ovr }

/-- A register access that is not 32 bits wide or not aligned is refused; one at an offset of 0x20 or more does not
reach the block (R109). That a read there gives the host nothing is the model's reading (log 19): R109 does not say what
it returns. -/
def Obligations.OtherRegisterAccesses : Prop :=
  ∀ (s : State) (rest : List Event) (off : Nat) (w : BusWidth) (v : Word),
    (off < 0x20 → w ≠ .w32 ∨ off % 4 ≠ 0 →
      (s.inputs = .regRead (s.plat.regBase + off) w :: rest → step s = .refused .registerAccess) ∧
      (s.inputs = .regWrite (s.plat.regBase + off) w v :: rest → step s = .refused .registerAccess)) ∧
    (0x20 ≤ off →
      (s.inputs = .regRead (s.plat.regBase + off) w :: rest → step s = .next { s with inputs := rest, rdData := none }) ∧
      (s.inputs = .regWrite (s.plat.regBase + off) w v :: rest → step s = .next { s with inputs := rest }))

/-- BUSY rises only with a write of CMD while idle and falls only with a completion or a reset (R23). -/
def Obligations.BusyMovesOnlyByIssueAndCompletion : Prop :=
  ∀ s t : State, step s = .next t →
    (s.busy = false → t.busy = true →
      ∃ v rest, s.inputs = .regWrite s.plat.regBase .w32 v :: rest ∧ t.cmd = v ∧ t.done = false) ∧
    (s.busy = true → t.busy = false → t.done = true ∨ ∃ rest, s.inputs = .reset :: rest)

/-- DONE rises only with a completion, and falls only with an issue, a write of STATUS with bit 1 set, or a reset
(R24). -/
def Obligations.DoneMovesOnlyByItsRules : Prop :=
  ∀ s t : State, step s = .next t →
    (s.done = false → t.done = true → s.busy = true ∧ t.busy = false) ∧
    (s.done = true → t.done = false →
      (s.busy = false ∧ t.busy = true) ∨ (∃ rest, s.inputs = .reset :: rest) ∨
      ∃ v rest, s.inputs = .regWrite (s.plat.regBase + 0x04) .w32 v :: rest ∧ v.getLsbD 1 = true)

/-- OVR is set only by a write of one of the five registers while busy, and cleared only by a write of STATUS with bit
2 set or by a reset (R25). -/
def Obligations.OverrunIsSticky : Prop :=
  ∀ s t : State, step s = .next t →
    (s.ovr = false → t.ovr = true →
      s.busy = true ∧ ∃ off v rest, off ∈ [0x00, 0x08, 0x0C, 0x10, 0x14] ∧
        s.inputs = .regWrite (s.plat.regBase + off) .w32 v :: rest) ∧
    (s.ovr = true → t.ovr = false →
      (∃ rest, s.inputs = .reset :: rest) ∨
      ∃ v rest, s.inputs = .regWrite (s.plat.regBase + 0x04) .w32 v :: rest ∧ v.getLsbD 2 = true)

/-- ERR and RESULT are written by a completion alone, and by reset (R26, R27): no host access changes them. -/
def Obligations.ErrAndResultChangeOnlyAtCompletion : Prop :=
  ∀ s t : State, step s = .next t → (t.err ≠ s.err ∨ t.result ≠ s.result) →
    (s.busy = true ∧ t.busy = false ∧ t.done = true) ∨ ∃ rest, s.inputs = .reset :: rest

/-- While a command is in flight no step but a reset changes CMD or an argument register, so the engine step reads the
values the host left at issue (R36). -/
def Obligations.ArgumentsAreFrozenInFlight : Prop :=
  ∀ s t : State, step s = .next t → s.busy = true →
    (t.cmd = s.cmd ∧ t.srcAddr = s.srcAddr ∧ t.srcLen = s.srcLen ∧ t.dstAddr = s.dstAddr ∧ t.dstCap = s.dstCap) ∨
    ∃ rest, s.inputs = .reset :: rest

/-- Once the events are used up, the next step leaves no command in flight (R105's fairness as log 2 has it). -/
def Obligations.CommandInFlightIsPerformed : Prop :=
  ∀ s t : State, Sys2Proof.core.run (s.inputs.length + 1) s = .next t → t.busy = false ∧ t.inputs = []

/-! ### Buffers, hazards and reset (70_reset_and_hazards.md) -/

/-- The read set of each command, as issue records it (42_encode.md R150, 43_decode.md R191); how bytes of DECODE's text
without storage count is log 22. -/
def Obligations.ReadSetOfACommand : Prop :=
  ∀ (s : State) (x : Nat),
    (decodeCmd s.cmd = .ok (.encode true true) → 4 * ((s.srcLen.toNat + 2) / 3) + 1 ≤ s.dstCap.toNat →
      ((footprint s).reads x = true ↔ s.srcAddr.toNat ≤ x ∧ x < s.srcAddr.toNat + s.srcLen.toNat)) ∧
    (decodeCmd s.cmd = .ok (.encode true true) → s.dstCap.toNat < 4 * ((s.srcLen.toNat + 2) / 3) + 1 →
      (footprint s).reads x = false) ∧
    (decodeCmd s.cmd = .ok (.decode true true) →
      ((footprint s).reads x = true ↔ s.srcAddr.toNat ≤ x ∧
        x < s.srcAddr.toNat + min s.srcLen.toNat (effectiveLength s.mem s.srcAddr.toNat s.srcLen.toNat + 1))) ∧
    (∀ i : Instr, decodeCmd s.cmd = .ok i → i.sp = false ∨ i.dp = false → (footprint s).reads x = false)

/-- A host access to a byte of the read set or the write set of a command not yet seen complete is refused, and gives
no result (R245; that a read of the write set is refused too is log 11). -/
def Obligations.BuffersInUseAreRefused : Prop :=
  ∀ (s : State) (rest : List Event) (f : Footprint) (a i : Nat), f ∈ s.windows →
    ((f.readBase ≤ a + i ∧ a + i < f.readBase + f.readLen) ∨
      (f.writeBase ≤ a + i ∧ a + i < f.writeBase + f.writeLen)) →
    (∀ n, i < n → validRange s.plat a n → s.inputs = .bufRead a n :: rest →
      ∃ x, s.inUse x = true ∧ step s = .refused (.bufferInUse x)) ∧
    (∀ bs, i < bs.length → validRange s.plat a bs.length → s.inputs = .bufWrite a bs :: rest →
      ∃ x, s.inUse x = true ∧ step s = .refused (.bufferInUse x))

/-- Any other host access reads the bytes the host sees, which are memory's own where writes are visible at once, and
writes its own bytes alone (20_memory.md R58): to memory, or, where HostOrdering asks for a fence, to the writes that the
engine does not see yet (R62, log 14). -/
def Obligations.HostBufferAccesses : Prop :=
  ∀ (s : State) (rest : List Event) (a : Nat), s.Inv →
    (∀ n, (∀ i, i < n → s.plat.valid (a + i) = true ∧ s.inUse (a + i) = false) → s.inputs = .bufRead a n :: rest →
      step s = .next { s with inputs := rest, bufData := s.hostBytes a n } ∧
      (s.plat.ordering = { toEngine := .atOnce, toHost := .atOnce } →
        step s = .next { s with inputs := rest, bufData := s.mem.bytesAt a n })) ∧
    (∀ bs, (∀ i, i < bs.length → s.plat.valid (a + i) = true ∧ s.inUse (a + i) = false) →
      s.inputs = .bufWrite a bs :: rest →
      ∃ t, step s = .next t ∧ t.hostBytes a bs.length = bs ∧
        (∀ x, x < a ∨ a + bs.length ≤ x → t.hostByte x = s.hostByte x) ∧
        (s.plat.ordering.toEngine = .atOnce →
          t.mem.bytesAt a bs.length = bs ∧ sameOutside s.mem t.mem a bs.length ∧ t.unseen = s.unseen) ∧
        (s.plat.ordering.toEngine = .onFence → t.mem = s.mem ∧ t.hostMem = s.hostMem) ∧
        t = { s with inputs := rest, mem := t.mem, unseen := t.unseen, hostMem := t.hostMem })

/-- The order of an allowed host buffer access, or of a publish, and the engine step makes no difference: a command is an
atomic transformation of memory at any point between its issue and its observed completion (20_memory.md R61). -/
def Obligations.HostAccessCommutesWithEngineStep : Prop :=
  ∀ (s s1 s2 : State) (e : Event), s.Inv → s.busy = true →
    ((∃ a n, e = .bufRead a n) ∨ (∃ a bs, e = .bufWrite a bs) ∨ e = .publish) →
    runEvent e s = .next s1 → perform s1 = .next s2 →
    ∃ s3, perform s = .next s3 ∧ runEvent e s3 = .next s2

/-- The reset event (R240) at any time: every register takes its value of 10_state.md R38 and nothing is in flight. That no
buffer is closed to the host after it is the model's choice (log 12). -/
def Obligations.ResetEventClearsRegisters : Prop :=
  ∀ (s : State) (rest : List Event), s.inputs = .reset :: rest →
    ∃ t, step s = .next t ∧ t.cmd = 0#32 ∧ statusWord t = 0#32 ∧ t.srcAddr = 0#32 ∧ t.srcLen = 0#32 ∧
      t.dstAddr = 0#32 ∧ t.dstCap = 0#32 ∧ t.result = 0#32 ∧ t.busy = false ∧ t.done = false ∧ t.plat = s.plat ∧
      t.windows = [] ∧ t.inputs = rest

/-- Reset and memory (R241): nothing changes while idle; with a command in flight, nothing outside its write set. -/
def Obligations.ResetEventAndMemory : Prop :=
  ∀ (s t : State) (rest : List Event), s.inputs = .reset :: rest → step s = .next t →
    (s.busy = false → t.mem = s.mem) ∧
    (s.busy = true → ∀ a, (footprint s).writes a = false → t.mem.byteAt a = s.mem.byteAt a)

/-- The state after reset holds the values of 10_state.md R38. -/
def Obligations.ResetStateValues : Prop :=
  State.reset.cmd = 0#32 ∧ statusWord State.reset = 0#32 ∧ State.reset.srcAddr = 0#32 ∧ State.reset.srcLen = 0#32 ∧
    State.reset.dstAddr = 0#32 ∧ State.reset.dstCap = 0#32 ∧ State.reset.result = 0#32 ∧ State.reset.busy = false

/-! ### The invariant -/

/-- The invariant holds after reset. -/
def Obligations.ResetMeetsInvariant : Prop := State.reset.Inv

/-- Every step keeps the invariant: canonical memory over backed addresses, host writes pending and older copies only
where HostOrdering lets there be any, AW-bit addresses, BUSY and DONE never both, no reserved error code, RESULT the
negated code of a failure, and the buffers of a command in flight closed to the host exactly as they were at issue. -/
def Obligations.StepKeepsInvariant : Prop :=
  ∀ s t : State, s.Inv → step s = .next t → t.Inv

/-- No step changes the launch parameters (00_scope.md R7), and a step with no event left and nothing in flight changes
nothing (log 2). -/
def Obligations.LaunchParametersAndIdleMachine : Prop :=
  (∀ s t : State, step s = .next t → t.plat = s.plat) ∧
  (∀ s : State, s.inputs = [] → s.busy = false → step s = .next s)

/-! ### The pseudo-instructions (30_encoding.md R82) -/

/-- The pseudo-instructions ENCODE and DECODE of R82, from an idle block: the accesses of the expansion end as the command
does that the written registers describe, whatever the number of STATUS reads before the engine step; the last read
returns the command's STATUS and gives its buffers back. -/
def Obligations.PseudoInstructionRunsCommand : Prop :=
  ∀ (s a : State) (i : Instr) (src len dst cap : Word) (early : Nat) (rest : List Event), s.busy = false →
    s.inputs = commandEvents s.plat i src len dst cap early ++ rest →
    a = issue (encodeCmd i) { s with inputs := rest, srcAddr := addressValue s.plat src, srcLen := len,
                                     dstAddr := addressValue s.plat dst, dstCap := cap } →
    (∀ u, exec i a = .next u → Sys2Proof.core.run (early + 7) s =
      .next { u with rdData := some (statusWord u), windows := [] }) ∧
    (∀ f, exec i a = .fault f → Sys2Proof.core.run (early + 7) s = .fault f) ∧
    (∀ r, exec i a = .refused r → Sys2Proof.core.run (early + 7) s = .refused r)

/-! ### The write sets (20_memory.md R67) and HostOrdering (R62) -/

/-- The write set of each command, as issue records it: R67's ranges, also where the command will fail a check; that an
absent reference leaves none, but for ENCODE's destination with an absent source, is log 10, and how bytes of DECODE's
text without storage count is log 22. -/
def Obligations.WriteSetOfACommand : Prop :=
  ∀ (s : State) (x : Nat),
    (∀ sp, decodeCmd s.cmd = .ok (.encode sp true) →
      ((footprint s).writes x = true ↔
        s.dstAddr.toNat ≤ x ∧ x < s.dstAddr.toNat + (4 * ((s.srcLen.toNat + 2) / 3) + 1))) ∧
    (∀ sp, decodeCmd s.cmd = .ok (.encode sp false) → (footprint s).writes x = false) ∧
    (∀ len text, len = effectiveLength s.mem s.srcAddr.toNat s.srcLen.toNat →
      text = s.mem.bytesAt s.srcAddr.toNat (4 * (len / 4)) → decodeCmd s.cmd = .ok (.decode true true) →
      ((footprint s).writes x = true ↔
        s.dstAddr.toNat ≤ x ∧ x < s.dstAddr.toNat + (len / 4 * 3 - trailingPad text))) ∧
    (∀ sp dp, decodeCmd s.cmd = .ok (.decode sp dp) → sp = false ∨ dp = false → (footprint s).writes x = false) ∧
    (∀ e, decodeCmd s.cmd = .error e → (footprint s).writes x = false)

/-- HostOrdering (R62): where both directions are visible at once the host sees memory itself; a publish makes every host
write visible to the engine (R61 (a)), an acquire makes the engine's bytes visible to the host (R61 (b)), and a settle
does so for one byte. How a platform that needs them behaves is the model's choice (log 14). -/
def Obligations.HostOrderingMakesWritesVisible : Prop :=
  ∀ (s : State) (rest : List Event), s.Inv →
    (s.plat.ordering = { toEngine := .atOnce, toHost := .atOnce } → ∀ a, s.hostByte a = s.mem.byteAt a) ∧
    (s.inputs = .publish :: rest → (∀ c ∈ s.unseen, s.inUse c.1 = false) →
      ∃ t, step s = .next t ∧ t.unseen = [] ∧ (∀ a, t.hostByte a = s.hostByte a) ∧
        (∀ a, t.mem.byteAt a = (s.unseen.byteFor a).getD (s.mem.byteAt a)) ∧
        t = { s with inputs := rest, mem := t.mem, unseen := [], hostMem := t.hostMem }) ∧
    (s.inputs = .acquire :: rest →
      ∃ t, step s = .next t ∧ (∀ a, t.hostByte a = (s.unseen.byteFor a).getD (s.mem.byteAt a)) ∧
        t = { s with inputs := rest, hostMem := t.hostMem }) ∧
    (∀ a, s.inputs = .settle a :: rest → (s.unseen.byteFor a ≠ none → s.inUse a = false) →
      ∃ t, step s = .next t ∧ t.mem.byteAt a = (s.unseen.byteFor a).getD (s.mem.byteAt a) ∧
        t.hostByte a = t.mem.byteAt a ∧
        (∀ x, x ≠ a → t.mem.byteAt x = s.mem.byteAt x ∧ t.hostByte x = s.hostByte x) ∧
        t = { s with inputs := rest, mem := t.mem, unseen := t.unseen, hostMem := t.hostMem })
end

