-- ==== Sys2Proof/Laws/State.lean ====
section
/-! SUPPORT. One lemma per field and update of State, true by rfl, so that no proof unfolds a record update. -/

namespace Sys2Proof.Machine

/-! ### complete -/

@[simp] theorem complete_plat (c : ErrCode) (n : Nat) (s : State) : (complete c n s).plat = s.plat := rfl
@[simp] theorem complete_cmd (c : ErrCode) (n : Nat) (s : State) : (complete c n s).cmd = s.cmd := rfl
@[simp] theorem complete_busy (c : ErrCode) (n : Nat) (s : State) : (complete c n s).busy = false := rfl
@[simp] theorem complete_done (c : ErrCode) (n : Nat) (s : State) : (complete c n s).done = true := rfl
@[simp] theorem complete_ovr (c : ErrCode) (n : Nat) (s : State) : (complete c n s).ovr = s.ovr := rfl
@[simp] theorem complete_err (c : ErrCode) (n : Nat) (s : State) : (complete c n s).err = c.bits := rfl
@[simp] theorem complete_srcAddr (c : ErrCode) (n : Nat) (s : State) : (complete c n s).srcAddr = s.srcAddr := rfl
@[simp] theorem complete_srcLen (c : ErrCode) (n : Nat) (s : State) : (complete c n s).srcLen = s.srcLen := rfl
@[simp] theorem complete_dstAddr (c : ErrCode) (n : Nat) (s : State) : (complete c n s).dstAddr = s.dstAddr := rfl
@[simp] theorem complete_dstCap (c : ErrCode) (n : Nat) (s : State) : (complete c n s).dstCap = s.dstCap := rfl
@[simp] theorem complete_result (c : ErrCode) (n : Nat) (s : State) : (complete c n s).result = resultValue c n := rfl
@[simp] theorem complete_mem (c : ErrCode) (n : Nat) (s : State) : (complete c n s).mem = s.mem := rfl
@[simp] theorem complete_unseen (c : ErrCode) (n : Nat) (s : State) : (complete c n s).unseen = s.unseen := rfl
@[simp] theorem complete_hostMem (c : ErrCode) (n : Nat) (s : State) : (complete c n s).hostMem = s.hostMem := rfl
@[simp] theorem complete_windows (c : ErrCode) (n : Nat) (s : State) : (complete c n s).windows = s.windows := rfl
@[simp] theorem complete_inputs (c : ErrCode) (n : Nat) (s : State) : (complete c n s).inputs = s.inputs := rfl
@[simp] theorem complete_draws (c : ErrCode) (n : Nat) (s : State) : (complete c n s).draws = s.draws := rfl
@[simp] theorem complete_rdData (c : ErrCode) (n : Nat) (s : State) : (complete c n s).rdData = s.rdData := rfl
@[simp] theorem complete_bufData (c : ErrCode) (n : Nat) (s : State) : (complete c n s).bufData = s.bufData := rfl

/-! ### statusWrite -/

@[simp] theorem statusWrite_plat (v : Word) (s : State) : (statusWrite v s).plat = s.plat := rfl
@[simp] theorem statusWrite_cmd (v : Word) (s : State) : (statusWrite v s).cmd = s.cmd := rfl
@[simp] theorem statusWrite_busy (v : Word) (s : State) : (statusWrite v s).busy = s.busy := rfl
@[simp] theorem statusWrite_done (v : Word) (s : State) : (statusWrite v s).done = (s.done && !v.getLsbD 1) := rfl
@[simp] theorem statusWrite_ovr (v : Word) (s : State) : (statusWrite v s).ovr = (s.ovr && !v.getLsbD 2) := rfl
@[simp] theorem statusWrite_err (v : Word) (s : State) : (statusWrite v s).err = s.err := rfl
@[simp] theorem statusWrite_srcAddr (v : Word) (s : State) : (statusWrite v s).srcAddr = s.srcAddr := rfl
@[simp] theorem statusWrite_srcLen (v : Word) (s : State) : (statusWrite v s).srcLen = s.srcLen := rfl
@[simp] theorem statusWrite_dstAddr (v : Word) (s : State) : (statusWrite v s).dstAddr = s.dstAddr := rfl
@[simp] theorem statusWrite_dstCap (v : Word) (s : State) : (statusWrite v s).dstCap = s.dstCap := rfl
@[simp] theorem statusWrite_result (v : Word) (s : State) : (statusWrite v s).result = s.result := rfl
@[simp] theorem statusWrite_mem (v : Word) (s : State) : (statusWrite v s).mem = s.mem := rfl
@[simp] theorem statusWrite_unseen (v : Word) (s : State) : (statusWrite v s).unseen = s.unseen := rfl
@[simp] theorem statusWrite_hostMem (v : Word) (s : State) : (statusWrite v s).hostMem = s.hostMem := rfl
@[simp] theorem statusWrite_windows (v : Word) (s : State) : (statusWrite v s).windows = s.windows := rfl
@[simp] theorem statusWrite_inputs (v : Word) (s : State) : (statusWrite v s).inputs = s.inputs := rfl
@[simp] theorem statusWrite_draws (v : Word) (s : State) : (statusWrite v s).draws = s.draws := rfl
@[simp] theorem statusWrite_rdData (v : Word) (s : State) : (statusWrite v s).rdData = s.rdData := rfl
@[simp] theorem statusWrite_bufData (v : Word) (s : State) : (statusWrite v s).bufData = s.bufData := rfl

/-! ### overrun -/

@[simp] theorem overrun_plat (s : State) : (overrun s).plat = s.plat := rfl
@[simp] theorem overrun_cmd (s : State) : (overrun s).cmd = s.cmd := rfl
@[simp] theorem overrun_busy (s : State) : (overrun s).busy = s.busy := rfl
@[simp] theorem overrun_done (s : State) : (overrun s).done = s.done := rfl
@[simp] theorem overrun_ovr (s : State) : (overrun s).ovr = true := rfl
@[simp] theorem overrun_err (s : State) : (overrun s).err = s.err := rfl
@[simp] theorem overrun_srcAddr (s : State) : (overrun s).srcAddr = s.srcAddr := rfl
@[simp] theorem overrun_srcLen (s : State) : (overrun s).srcLen = s.srcLen := rfl
@[simp] theorem overrun_dstAddr (s : State) : (overrun s).dstAddr = s.dstAddr := rfl
@[simp] theorem overrun_dstCap (s : State) : (overrun s).dstCap = s.dstCap := rfl
@[simp] theorem overrun_result (s : State) : (overrun s).result = s.result := rfl
@[simp] theorem overrun_mem (s : State) : (overrun s).mem = s.mem := rfl
@[simp] theorem overrun_unseen (s : State) : (overrun s).unseen = s.unseen := rfl
@[simp] theorem overrun_hostMem (s : State) : (overrun s).hostMem = s.hostMem := rfl
@[simp] theorem overrun_windows (s : State) : (overrun s).windows = s.windows := rfl
@[simp] theorem overrun_inputs (s : State) : (overrun s).inputs = s.inputs := rfl
@[simp] theorem overrun_draws (s : State) : (overrun s).draws = s.draws := rfl
@[simp] theorem overrun_rdData (s : State) : (overrun s).rdData = s.rdData := rfl
@[simp] theorem overrun_bufData (s : State) : (overrun s).bufData = s.bufData := rfl

/-! ### issue -/

@[simp] theorem issue_plat (w : Word) (s : State) : (issue w s).plat = s.plat := rfl
@[simp] theorem issue_cmd (w : Word) (s : State) : (issue w s).cmd = w := rfl
@[simp] theorem issue_busy (w : Word) (s : State) : (issue w s).busy = true := rfl
@[simp] theorem issue_done (w : Word) (s : State) : (issue w s).done = false := rfl
@[simp] theorem issue_ovr (w : Word) (s : State) : (issue w s).ovr = s.ovr := rfl
@[simp] theorem issue_err (w : Word) (s : State) : (issue w s).err = s.err := rfl
@[simp] theorem issue_srcAddr (w : Word) (s : State) : (issue w s).srcAddr = s.srcAddr := rfl
@[simp] theorem issue_srcLen (w : Word) (s : State) : (issue w s).srcLen = s.srcLen := rfl
@[simp] theorem issue_dstAddr (w : Word) (s : State) : (issue w s).dstAddr = s.dstAddr := rfl
@[simp] theorem issue_dstCap (w : Word) (s : State) : (issue w s).dstCap = s.dstCap := rfl
@[simp] theorem issue_result (w : Word) (s : State) : (issue w s).result = s.result := rfl
@[simp] theorem issue_mem (w : Word) (s : State) : (issue w s).mem = s.mem := rfl
@[simp] theorem issue_unseen (w : Word) (s : State) : (issue w s).unseen = s.unseen := rfl
@[simp] theorem issue_hostMem (w : Word) (s : State) : (issue w s).hostMem = s.hostMem := rfl
@[simp] theorem issue_windows (w : Word) (s : State) : (issue w s).windows = footprint (issue w s) :: s.windows := rfl
@[simp] theorem issue_inputs (w : Word) (s : State) : (issue w s).inputs = s.inputs := rfl
@[simp] theorem issue_draws (w : Word) (s : State) : (issue w s).draws = s.draws := rfl
@[simp] theorem issue_rdData (w : Word) (s : State) : (issue w s).rdData = s.rdData := rfl
@[simp] theorem issue_bufData (w : Word) (s : State) : (issue w s).bufData = s.bufData := rfl

/-! ### readReg -/

@[simp] theorem readReg_plat (r : Reg) (s : State) : (readReg r s).plat = s.plat := rfl
@[simp] theorem readReg_cmd (r : Reg) (s : State) : (readReg r s).cmd = s.cmd := rfl
@[simp] theorem readReg_busy (r : Reg) (s : State) : (readReg r s).busy = s.busy := rfl
@[simp] theorem readReg_done (r : Reg) (s : State) : (readReg r s).done = s.done := rfl
@[simp] theorem readReg_ovr (r : Reg) (s : State) : (readReg r s).ovr = s.ovr := rfl
@[simp] theorem readReg_err (r : Reg) (s : State) : (readReg r s).err = s.err := rfl
@[simp] theorem readReg_srcAddr (r : Reg) (s : State) : (readReg r s).srcAddr = s.srcAddr := rfl
@[simp] theorem readReg_srcLen (r : Reg) (s : State) : (readReg r s).srcLen = s.srcLen := rfl
@[simp] theorem readReg_dstAddr (r : Reg) (s : State) : (readReg r s).dstAddr = s.dstAddr := rfl
@[simp] theorem readReg_dstCap (r : Reg) (s : State) : (readReg r s).dstCap = s.dstCap := rfl
@[simp] theorem readReg_result (r : Reg) (s : State) : (readReg r s).result = s.result := rfl
@[simp] theorem readReg_mem (r : Reg) (s : State) : (readReg r s).mem = s.mem := rfl
@[simp] theorem readReg_unseen (r : Reg) (s : State) : (readReg r s).unseen = s.unseen := rfl
@[simp] theorem readReg_hostMem (r : Reg) (s : State) : (readReg r s).hostMem = s.hostMem := rfl
@[simp] theorem readReg_windows (r : Reg) (s : State) : (readReg r s).windows = if r = .status ∧ s.done = true then [] else s.windows := rfl
@[simp] theorem readReg_inputs (r : Reg) (s : State) : (readReg r s).inputs = s.inputs := rfl
@[simp] theorem readReg_draws (r : Reg) (s : State) : (readReg r s).draws = s.draws := rfl
@[simp] theorem readReg_rdData (r : Reg) (s : State) : (readReg r s).rdData = some (regValue r s) := rfl
@[simp] theorem readReg_bufData (r : Reg) (s : State) : (readReg r s).bufData = s.bufData := rfl

/-! ### placeCommand -/

@[simp] theorem placeCommand_plat (w : Word) (s : State) : (placeCommand w s).plat = s.plat := rfl
@[simp] theorem placeCommand_cmd (w : Word) (s : State) : (placeCommand w s).cmd = w := rfl
@[simp] theorem placeCommand_busy (w : Word) (s : State) : (placeCommand w s).busy = true := rfl
@[simp] theorem placeCommand_done (w : Word) (s : State) : (placeCommand w s).done = false := rfl
@[simp] theorem placeCommand_ovr (w : Word) (s : State) : (placeCommand w s).ovr = s.ovr := rfl
@[simp] theorem placeCommand_err (w : Word) (s : State) : (placeCommand w s).err = s.err := rfl
@[simp] theorem placeCommand_srcAddr (w : Word) (s : State) : (placeCommand w s).srcAddr = s.srcAddr := rfl
@[simp] theorem placeCommand_srcLen (w : Word) (s : State) : (placeCommand w s).srcLen = s.srcLen := rfl
@[simp] theorem placeCommand_dstAddr (w : Word) (s : State) : (placeCommand w s).dstAddr = s.dstAddr := rfl
@[simp] theorem placeCommand_dstCap (w : Word) (s : State) : (placeCommand w s).dstCap = s.dstCap := rfl
@[simp] theorem placeCommand_result (w : Word) (s : State) : (placeCommand w s).result = s.result := rfl
@[simp] theorem placeCommand_mem (w : Word) (s : State) : (placeCommand w s).mem = s.mem := rfl
@[simp] theorem placeCommand_unseen (w : Word) (s : State) : (placeCommand w s).unseen = s.unseen := rfl
@[simp] theorem placeCommand_hostMem (w : Word) (s : State) : (placeCommand w s).hostMem = s.hostMem := rfl
@[simp] theorem placeCommand_windows (w : Word) (s : State) : (placeCommand w s).windows = footprint (issue w s) :: s.windows := rfl
@[simp] theorem placeCommand_inputs (w : Word) (s : State) : (placeCommand w s).inputs = .engine :: s.inputs := rfl
@[simp] theorem placeCommand_draws (w : Word) (s : State) : (placeCommand w s).draws = s.draws := rfl
@[simp] theorem placeCommand_rdData (w : Word) (s : State) : (placeCommand w s).rdData = s.rdData := rfl
@[simp] theorem placeCommand_bufData (w : Word) (s : State) : (placeCommand w s).bufData = s.bufData := rfl

/-! ### resetEvent -/

@[simp] theorem resetEvent_plat (s : State) : (resetEvent s).plat = s.plat := rfl
@[simp] theorem resetEvent_cmd (s : State) : (resetEvent s).cmd = 0#32 := rfl
@[simp] theorem resetEvent_busy (s : State) : (resetEvent s).busy = false := rfl
@[simp] theorem resetEvent_done (s : State) : (resetEvent s).done = false := rfl
@[simp] theorem resetEvent_ovr (s : State) : (resetEvent s).ovr = false := rfl
@[simp] theorem resetEvent_err (s : State) : (resetEvent s).err = 0#4 := rfl
@[simp] theorem resetEvent_srcAddr (s : State) : (resetEvent s).srcAddr = 0#32 := rfl
@[simp] theorem resetEvent_srcLen (s : State) : (resetEvent s).srcLen = 0#32 := rfl
@[simp] theorem resetEvent_dstAddr (s : State) : (resetEvent s).dstAddr = 0#32 := rfl
@[simp] theorem resetEvent_dstCap (s : State) : (resetEvent s).dstCap = 0#32 := rfl
@[simp] theorem resetEvent_result (s : State) : (resetEvent s).result = 0#32 := rfl
@[simp] theorem resetEvent_mem (s : State) : (resetEvent s).mem = storeFree s.plat s.draws (footprint s).writeBase s.mem (if s.busy then (footprint s).writeLen else 0) := rfl
@[simp] theorem resetEvent_unseen (s : State) : (resetEvent s).unseen = s.unseen := rfl
@[simp] theorem resetEvent_hostMem (s : State) : (resetEvent s).hostMem = s.hostMem := rfl
@[simp] theorem resetEvent_windows (s : State) : (resetEvent s).windows = [] := rfl
@[simp] theorem resetEvent_inputs (s : State) : (resetEvent s).inputs = s.inputs := rfl
@[simp] theorem resetEvent_draws (s : State) : (resetEvent s).draws = s.draws + (if s.busy then (footprint s).writeLen else 0) := rfl
@[simp] theorem resetEvent_rdData (s : State) : (resetEvent s).rdData = s.rdData := rfl
@[simp] theorem resetEvent_bufData (s : State) : (resetEvent s).bufData = s.bufData := rfl

/-! ### hostStore: what HostOrdering leaves alone -/

@[simp] theorem hostStore_plat (s : State) (a : Nat) (bs : List Byte) : (s.hostStore a bs).plat = s.plat := by
  unfold State.hostStore; split <;> rfl
@[simp] theorem hostStore_cmd (s : State) (a : Nat) (bs : List Byte) : (s.hostStore a bs).cmd = s.cmd := by
  unfold State.hostStore; split <;> rfl
@[simp] theorem hostStore_busy (s : State) (a : Nat) (bs : List Byte) : (s.hostStore a bs).busy = s.busy := by
  unfold State.hostStore; split <;> rfl
@[simp] theorem hostStore_done (s : State) (a : Nat) (bs : List Byte) : (s.hostStore a bs).done = s.done := by
  unfold State.hostStore; split <;> rfl
@[simp] theorem hostStore_ovr (s : State) (a : Nat) (bs : List Byte) : (s.hostStore a bs).ovr = s.ovr := by
  unfold State.hostStore; split <;> rfl
@[simp] theorem hostStore_err (s : State) (a : Nat) (bs : List Byte) : (s.hostStore a bs).err = s.err := by
  unfold State.hostStore; split <;> rfl
@[simp] theorem hostStore_srcAddr (s : State) (a : Nat) (bs : List Byte) : (s.hostStore a bs).srcAddr = s.srcAddr := by
  unfold State.hostStore; split <;> rfl
@[simp] theorem hostStore_srcLen (s : State) (a : Nat) (bs : List Byte) : (s.hostStore a bs).srcLen = s.srcLen := by
  unfold State.hostStore; split <;> rfl
@[simp] theorem hostStore_dstAddr (s : State) (a : Nat) (bs : List Byte) : (s.hostStore a bs).dstAddr = s.dstAddr := by
  unfold State.hostStore; split <;> rfl
@[simp] theorem hostStore_dstCap (s : State) (a : Nat) (bs : List Byte) : (s.hostStore a bs).dstCap = s.dstCap := by
  unfold State.hostStore; split <;> rfl
@[simp] theorem hostStore_result (s : State) (a : Nat) (bs : List Byte) : (s.hostStore a bs).result = s.result := by
  unfold State.hostStore; split <;> rfl
@[simp] theorem hostStore_windows (s : State) (a : Nat) (bs : List Byte) : (s.hostStore a bs).windows = s.windows := by
  unfold State.hostStore; split <;> rfl
@[simp] theorem hostStore_inputs (s : State) (a : Nat) (bs : List Byte) : (s.hostStore a bs).inputs = s.inputs := by
  unfold State.hostStore; split <;> rfl
@[simp] theorem hostStore_draws (s : State) (a : Nat) (bs : List Byte) : (s.hostStore a bs).draws = s.draws := by
  unfold State.hostStore; split <;> rfl
@[simp] theorem hostStore_rdData (s : State) (a : Nat) (bs : List Byte) : (s.hostStore a bs).rdData = s.rdData := by
  unfold State.hostStore; split <;> rfl
@[simp] theorem hostStore_bufData (s : State) (a : Nat) (bs : List Byte) : (s.hostStore a bs).bufData = s.bufData := by
  unfold State.hostStore; split <;> rfl

/-! ### hostAcquire -/

@[simp] theorem hostAcquire_plat (s : State) : (hostAcquire s).plat = s.plat := rfl
@[simp] theorem hostAcquire_cmd (s : State) : (hostAcquire s).cmd = s.cmd := rfl
@[simp] theorem hostAcquire_busy (s : State) : (hostAcquire s).busy = s.busy := rfl
@[simp] theorem hostAcquire_done (s : State) : (hostAcquire s).done = s.done := rfl
@[simp] theorem hostAcquire_ovr (s : State) : (hostAcquire s).ovr = s.ovr := rfl
@[simp] theorem hostAcquire_err (s : State) : (hostAcquire s).err = s.err := rfl
@[simp] theorem hostAcquire_srcAddr (s : State) : (hostAcquire s).srcAddr = s.srcAddr := rfl
@[simp] theorem hostAcquire_srcLen (s : State) : (hostAcquire s).srcLen = s.srcLen := rfl
@[simp] theorem hostAcquire_dstAddr (s : State) : (hostAcquire s).dstAddr = s.dstAddr := rfl
@[simp] theorem hostAcquire_dstCap (s : State) : (hostAcquire s).dstCap = s.dstCap := rfl
@[simp] theorem hostAcquire_result (s : State) : (hostAcquire s).result = s.result := rfl
@[simp] theorem hostAcquire_mem (s : State) : (hostAcquire s).mem = s.mem := rfl
@[simp] theorem hostAcquire_unseen (s : State) : (hostAcquire s).unseen = s.unseen := rfl
@[simp] theorem hostAcquire_hostMem (s : State) : (hostAcquire s).hostMem = s.hostCopy s.mem := rfl
@[simp] theorem hostAcquire_windows (s : State) : (hostAcquire s).windows = s.windows := rfl
@[simp] theorem hostAcquire_inputs (s : State) : (hostAcquire s).inputs = s.inputs := rfl
@[simp] theorem hostAcquire_draws (s : State) : (hostAcquire s).draws = s.draws := rfl
@[simp] theorem hostAcquire_rdData (s : State) : (hostAcquire s).rdData = s.rdData := rfl
@[simp] theorem hostAcquire_bufData (s : State) : (hostAcquire s).bufData = s.bufData := rfl

end Sys2Proof.Machine
end

