-- ==== Sys2Proof/Laws/Memory.lean ====
section
/-! SUPPORT. Buffer memory: read after write, the canonical form, and the ranges of a command. -/

namespace Sys2Proof.Machine

/-! ### Read after write (20_memory.md R58) -/

theorem Memory.byteAt_remove (m : Memory) (a x : Nat) :
    (m.remove a).byteAt x = if x = a then Config.unwritten else m.byteAt x := by
  induction m with
  | nil => simp [Memory.remove, Memory.byteAt]
  | cons c m ih =>
    obtain ⟨b, v⟩ := c
    simp only [Memory.remove] at ih
    by_cases hb : b = a
    · subst hb
      simp only [Memory.remove, ne_eq, not_true_eq_false, decide_false, Bool.false_eq_true, not_false_eq_true,
        List.filter_cons_of_neg, ih, Memory.byteAt]
      split
      · rfl
      · rw [if_neg (by omega)]
    · simp only [Memory.remove, ne_eq, hb, not_false_eq_true, decide_true, List.filter_cons_of_pos, Memory.byteAt, ih]
      by_cases hx : b = x
      · subst hx; simp [hb]
      · simp [hx]

theorem Memory.byteAt_put (m : Memory) (a x : Nat) (v : Byte) (h : ∀ c ∈ m, c.1 ≠ a) :
    (Memory.put a v m).byteAt x = if x = a then v else m.byteAt x := by
  induction m with
  | nil => simp [Memory.put, Memory.byteAt, eq_comm]
  | cons c m ih =>
    obtain ⟨b, w⟩ := c
    have hb : b ≠ a := h (b, w) (by simp)
    have ih := ih (fun c hc => h c (by simp [hc]))
    by_cases hab : a < b
    · simp [Memory.put, hab, Memory.byteAt, eq_comm]
    · simp only [Memory.put, hab, if_false, Memory.byteAt, ih]
      by_cases hx : b = x
      · subst hx; simp [hb]
      · simp [hx]

@[simp] theorem Memory.byteAt_write (m : Memory) (a x : Nat) (v : Byte) :
    (m.write a v).byteAt x = if x = a then v else m.byteAt x := by
  unfold Memory.write
  split
  · rename_i hv
    rw [Memory.byteAt_remove, hv]
  · rw [Memory.byteAt_put _ _ _ _ (by simp [Memory.remove]), Memory.byteAt_remove]
    split <;> rfl

/-- What a store leaves at every address: its bytes in its range, what was there before elsewhere. -/
theorem Memory.byteAt_store (m : Memory) (a x : Nat) (bs : List Byte) :
    (m.store a bs).byteAt x = if a ≤ x ∧ x < a + bs.length then bs.getD (x - a) 0#8 else m.byteAt x := by
  induction bs generalizing m a with
  | nil => simp [Memory.store]
  | cons b bs ih =>
    rw [Memory.store, ih, Memory.byteAt_write, List.length_cons]
    by_cases h1 : x = a
    · subst h1
      rw [if_neg (by omega), if_pos rfl, if_pos (by omega)]
      simp
    · rw [if_neg h1]
      by_cases h2 : a ≤ x ∧ x < a + (bs.length + 1)
      · rw [if_pos (by omega), if_pos h2, show x - a = (x - (a + 1)) + 1 by omega]
        simp
      · rw [if_neg (by omega), if_neg h2]

theorem Memory.byteAt_store_outside {m : Memory} {a x : Nat} {bs : List Byte} (h : x < a ∨ a + bs.length ≤ x) :
    (m.store a bs).byteAt x = m.byteAt x := by
  rw [Memory.byteAt_store, if_neg (by omega)]

/-! ### Buffers as lists of bytes (R53) -/

@[simp] theorem Memory.length_bytesAt (m : Memory) (a n : Nat) : (m.bytesAt a n).length = n := by
  induction n generalizing a with
  | zero => rfl
  | succ n ih => simp [Memory.bytesAt, ih]

theorem Memory.getElem?_bytesAt (m : Memory) (a n i : Nat) (h : i < n) : (m.bytesAt a n)[i]? = some (m.byteAt (a + i)) := by
  induction n generalizing a i with
  | zero => omega
  | succ n ih =>
    cases i with
    | zero => simp [Memory.bytesAt]
    | succ i =>
      rw [Memory.bytesAt, List.getElem?_cons_succ, ih (a + 1) i (by omega)]
      congr 2; omega

theorem Memory.bytesAt_congr {m m' : Memory} {a n : Nat} (h : ∀ i, i < n → m.byteAt (a + i) = m'.byteAt (a + i)) :
    m.bytesAt a n = m'.bytesAt a n := by
  induction n generalizing a with
  | zero => rfl
  | succ n ih =>
    have h0 := h 0 (by omega)
    simp only [Nat.add_zero] at h0
    rw [Memory.bytesAt, Memory.bytesAt, h0, ih (fun i hi => by rw [show a + 1 + i = a + (i + 1) by omega]; exact h _ (by omega))]

/-- A store is read back whole. -/
theorem Memory.bytesAt_store (m : Memory) (a : Nat) (bs : List Byte) : (m.store a bs).bytesAt a bs.length = bs := by
  apply List.ext_getElem? fun i => ?_
  by_cases hi : i < bs.length
  · rw [Memory.getElem?_bytesAt _ _ _ _ hi, Memory.byteAt_store, if_pos (by omega)]
    simp [List.getD, List.getElem?_eq_getElem hi]
  · rw [List.getElem?_eq_none (by simpa using hi), List.getElem?_eq_none (by simpa using hi)]

/-! ### The canonical form -/

theorem Memory.sorted_cons (c : Host.Cell) (m : Memory) :
    Memory.sorted (c :: m) = true ↔ (∀ d ∈ m, c.1 < d.1) ∧ Memory.sorted m = true := by
  simp [Memory.sorted]

theorem Memory.wf_iff (m : Memory) : m.wf = true ↔ Memory.sorted m = true ∧ ∀ c ∈ m, c.2 ≠ Config.unwritten := by
  simp [Memory.wf]

theorem Memory.sorted_remove {m : Memory} (a : Nat) (h : Memory.sorted m = true) : Memory.sorted (m.remove a) = true := by
  induction m with
  | nil => rfl
  | cons c m ih =>
    rw [Memory.sorted_cons] at h
    have ih := ih h.2
    by_cases hc : c.1 = a
    · simpa [Memory.remove, hc] using ih
    · have : Memory.remove (c :: m) a = c :: Memory.remove m a := by simp [Memory.remove, hc]
      rw [this, Memory.sorted_cons]
      exact ⟨fun d hd => h.1 d (List.mem_of_mem_filter hd), ih⟩

theorem Memory.mem_put {a : Nat} {v : Byte} {m : Memory} {c : Host.Cell} (h : c ∈ Memory.put a v m) :
    c = (a, v) ∨ c ∈ m := by
  induction m with
  | nil => simpa [Memory.put] using h
  | cons d m ih =>
    obtain ⟨b, w⟩ := d
    by_cases hab : a < b
    · simpa [Memory.put, hab] using h
    · rw [Memory.put, if_neg hab, List.mem_cons] at h
      rcases h with h | h
      · exact .inr (by simp [h])
      · exact (ih h).imp id (fun h => by simp [h])

theorem Memory.sorted_put {m : Memory} (a : Nat) (v : Byte) (h : Memory.sorted m = true) (hne : ∀ c ∈ m, c.1 ≠ a) :
    Memory.sorted (Memory.put a v m) = true := by
  induction m with
  | nil => rfl
  | cons d m ih =>
    obtain ⟨b, w⟩ := d
    have h' := (Memory.sorted_cons _ _).1 h
    have hb : b ≠ a := hne (b, w) (by simp)
    by_cases hab : a < b
    · rw [Memory.put, if_pos hab, Memory.sorted_cons]
      refine ⟨fun d hd => ?_, h⟩
      rcases List.mem_cons.1 hd with hd | hd
      · subst hd; exact hab
      · have := h'.1 d hd
        simp only at this ⊢; omega
    · rw [Memory.put, if_neg hab, Memory.sorted_cons]
      refine ⟨fun d hd => ?_, ih h'.2 (fun c hc => hne c (by simp [hc]))⟩
      rcases Memory.mem_put hd with hd | hd
      · subst hd; simp only; omega
      · exact h'.1 d hd

theorem Memory.mem_write {m : Memory} {a : Nat} {v : Byte} {c : Host.Cell} (h : c ∈ m.write a v) :
    (c = (a, v) ∧ v ≠ Config.unwritten) ∨ c ∈ m := by
  unfold Memory.write at h
  split at h
  · exact .inr (List.mem_of_mem_filter h)
  · rename_i hv
    rcases Memory.mem_put h with h | h
    · exact .inl ⟨h, hv⟩
    · exact .inr (List.mem_of_mem_filter h)

/-- A write keeps the canonical form. -/
theorem Memory.wf_write {m : Memory} (a : Nat) (v : Byte) (h : m.wf = true) : (m.write a v).wf = true := by
  rw [Memory.wf_iff] at h ⊢
  refine ⟨?_, fun c hc => ?_⟩
  · unfold Memory.write
    split
    · exact Memory.sorted_remove a h.1
    · exact Memory.sorted_put a v (Memory.sorted_remove a h.1) (by simp [Memory.remove])
  · rcases Memory.mem_write hc with ⟨rfl, hv⟩ | hc
    · exact hv
    · exact h.2 c hc

/-- A store keeps the canonical form. -/
theorem Memory.wf_store {m : Memory} (a : Nat) (bs : List Byte) (h : m.wf = true) : (m.store a bs).wf = true := by
  induction bs generalizing m a with
  | nil => exact h
  | cons b bs ih => exact ih (a + 1) (Memory.wf_write a b h)

theorem Memory.mem_store {m : Memory} {a : Nat} {bs : List Byte} {c : Host.Cell} (h : c ∈ m.store a bs) :
    (a ≤ c.1 ∧ c.1 < a + bs.length) ∨ c ∈ m := by
  induction bs generalizing m a with
  | nil => exact .inr h
  | cons b bs ih =>
    rw [List.length_cons]
    rcases ih h with h | h
    · exact .inl (by omega)
    · rcases Memory.mem_write h with ⟨rfl, -⟩ | h
      · exact .inl (by simp only; omega)
      · exact .inr h

/-- A reset's free bytes keep the canonical form. -/
theorem wf_storeFree (p : Platform) (k a n : Nat) {m : Memory} (h : m.wf = true) : (storeFree p k a m n).wf = true := by
  induction n generalizing k a m with
  | zero => exact h
  | succ n ih =>
    refine ih _ _ ?_
    split
    · exact Memory.wf_write _ _ h
    · exact h

/-- A reset's free bytes go to valid addresses only. -/
theorem mem_storeFree {p : Platform} {k a n : Nat} {m : Memory} {c : Host.Cell} (h : c ∈ storeFree p k a m n) :
    p.valid c.1 = true ∨ c ∈ m := by
  induction n generalizing k a m with
  | zero => exact .inr h
  | succ n ih =>
    rcases ih h with h | h
    · exact .inl h
    · split at h
      · rename_i hv
        rcases Memory.mem_write h with ⟨rfl, -⟩ | h
        · exact .inl hv
        · exact .inr h
      · exact .inr h

theorem byteAt_storeFree_outside {p : Platform} {k a n x : Nat} {m : Memory} (h : x < a ∨ a + n ≤ x) :
    (storeFree p k a m n).byteAt x = m.byteAt x := by
  induction n generalizing k a m with
  | zero => rfl
  | succ n ih =>
    rw [storeFree, ih (by omega)]
    split
    · rw [Memory.byteAt_write, if_neg (by omega)]
    · rfl

/-- An address below every cell of a memory is not listed in it. -/
theorem Memory.byteAt_of_lt {m : Memory} {a : Nat} (h : ∀ c ∈ m, a < c.1) : m.byteAt a = Config.unwritten := by
  induction m with
  | nil => rfl
  | cons c m ih =>
    have := h c (by simp)
    rw [Memory.byteAt, if_neg (by omega), ih (fun c hc => h c (by simp [hc]))]

/-- Equal memories are equal data: canonical memories that read the same everywhere are the same list. -/
theorem Memory.ext_of_wf {m m' : Memory} (h : m.wf = true) (h' : m'.wf = true) (hr : ∀ a, m.byteAt a = m'.byteAt a) :
    m = m' := by
  induction m generalizing m' with
  | nil =>
    cases m' with
    | nil => rfl
    | cons c m' =>
      have := hr c.1
      simp only [Memory.byteAt, if_true] at this
      exact absurd this.symm (((Memory.wf_iff _).1 h').2 c (by simp))
  | cons c m ih =>
    rw [Memory.wf_iff, Memory.sorted_cons] at h
    cases m' with
    | nil =>
      have := hr c.1
      simp only [Memory.byteAt, if_true] at this
      exact absurd this (h.2 c (by simp))
    | cons d m' =>
      rw [Memory.wf_iff, Memory.sorted_cons] at h'
      obtain ⟨b, v⟩ := c
      obtain ⟨e, w⟩ := d
      have hv := h.2 (b, v) (by simp)
      have hw := h'.2 (e, w) (by simp)
      have hbe : b = e := by
        rcases Nat.lt_trichotomy b e with hlt | heq | hgt
        · have := hr b
          rw [Memory.byteAt, if_pos rfl, Memory.byteAt_of_lt (fun c hc => ?_)] at this
          · exact absurd this hv
          · rcases List.mem_cons.1 hc with rfl | hc
            · exact hlt
            · exact Nat.lt_trans hlt (h'.1.1 c hc)
        · exact heq
        · have := (hr e).symm
          rw [Memory.byteAt, if_pos rfl, Memory.byteAt_of_lt (fun c hc => ?_)] at this
          · exact absurd this hw
          · rcases List.mem_cons.1 hc with rfl | hc
            · exact hgt
            · exact Nat.lt_trans hgt (h.1.1 c hc)
      subst hbe
      have hvw : v = w := by simpa [Memory.byteAt] using hr b
      subst hvw
      congr 1
      refine ih ((Memory.wf_iff _).2 ⟨h.1.2, fun c hc => h.2 c (by simp [hc])⟩)
        ((Memory.wf_iff _).2 ⟨h'.1.2, fun c hc => h'.2 c (by simp [hc])⟩) (fun a => ?_)
      by_cases hab : b = a
      · subst hab
        rw [Memory.byteAt_of_lt h.1.1, Memory.byteAt_of_lt h'.1.1]
      · simpa [Memory.byteAt, hab] using hr a

/-! ### Valid ranges (R56) and shared addresses (R67) -/

theorem firstInvalid_eq_none (p : Platform) (a n : Nat) :
    firstInvalid p a n = none ↔ ∀ i, i < n → p.valid (a + i) = true := by
  induction n generalizing a with
  | zero => simp [firstInvalid]
  | succ n ih =>
    rw [firstInvalid]
    constructor
    · intro h i hi
      split at h
      · rename_i hv
        cases i with
        | zero => exact hv
        | succ i => rw [show a + (i + 1) = a + 1 + i by omega]; exact (ih _).1 h i (by omega)
      · cases h
    · intro h
      rw [if_pos (by simpa using h 0 (by omega)), ih]
      intro i hi
      rw [show a + 1 + i = a + (i + 1) by omega]
      exact h _ (by omega)

/-- A fault names an invalid address of the range, the first one. -/
theorem firstInvalid_eq_some {p : Platform} {a n x : Nat} (h : firstInvalid p a n = some x) :
    p.valid x = false ∧ a ≤ x ∧ x < a + n ∧ ∀ y, a ≤ y → y < x → p.valid y = true := by
  induction n generalizing a with
  | zero => cases h
  | succ n ih =>
    rw [firstInvalid] at h
    split at h
    · rename_i hv
      obtain ⟨h1, h2, h3, h4⟩ := ih h
      refine ⟨h1, by omega, by omega, fun y hy hyx => ?_⟩
      by_cases hya : y = a
      · subst hya; exact hv
      · exact h4 y (by omega) hyx
    · rename_i hv
      cases h
      exact ⟨by simpa using hv, by omega, by omega, fun y _ _ => by omega⟩

theorem rangesOverlap_eq_true (a n b k : Nat) :
    rangesOverlap a n b k = true ↔ ∃ x, a ≤ x ∧ x < a + n ∧ b ≤ x ∧ x < b + k := by
  simp only [rangesOverlap, decide_eq_true_eq]
  constructor
  · intro h
    exact ⟨max a b, by omega, by omega, by omega, by omega⟩
  · rintro ⟨x, h⟩
    omega

theorem rangesOverlap_eq_false (a n b k : Nat) :
    rangesOverlap a n b k = false ↔ ∀ x, a ≤ x → x < a + n → x < b ∨ b + k ≤ x := by
  rw [← Bool.not_eq_true, rangesOverlap_eq_true]
  constructor
  · intro h x h1 h2
    by_contra hc
    exact h ⟨x, h1, h2, by omega, by omega⟩
  · rintro h ⟨x, h1, h2, h3, h4⟩
    rcases h x h1 h2 with h | h <;> omega

/-! ### The lengths of a text (43_decode.md R181, R191) -/

theorem effectiveLength_le (m : Memory) (a k : Nat) : effectiveLength m a k ≤ k := by
  induction k generalizing a with
  | zero => simp [effectiveLength]
  | succ k ih =>
    have := ih (a + 1)
    rw [effectiveLength]; split <;> omega

theorem effectiveLength_le_scan (m : Memory) (a k : Nat) : effectiveLength m a k ≤ scanLength m a k := by
  induction k generalizing a with
  | zero => simp [effectiveLength]
  | succ k ih =>
    have := ih (a + 1)
    rw [effectiveLength, scanLength]; split <;> omega

/-- R = min(SRC_LEN, t + 1), with t the index of the first TERM (R191). -/
theorem scanLength_eq_min (m : Memory) (a k : Nat) : scanLength m a k = min k (effectiveLength m a k + 1) := by
  induction k generalizing a with
  | zero => simp [scanLength]
  | succ k ih =>
    have := ih (a + 1)
    rw [effectiveLength, scanLength]; split <;> omega

/-- The characters before the effective length are not TERM, and the one at it is, unless SRC_LEN ends there. -/
theorem effectiveLength_spec (m : Memory) (a k : Nat) :
    (∀ i, i < effectiveLength m a k → m.byteAt (a + i) ≠ Config.term) ∧
    (effectiveLength m a k < k → m.byteAt (a + effectiveLength m a k) = Config.term) := by
  induction k generalizing a with
  | zero => simp [effectiveLength]
  | succ k ih =>
    obtain ⟨h1, h2⟩ := ih (a + 1)
    rw [effectiveLength]
    split
    · rename_i ht
      exact ⟨by omega, fun _ => by simpa using ht⟩
    · rename_i ht
      refine ⟨fun i hi => ?_, fun h => ?_⟩
      · cases i with
        | zero => simpa using ht
        | succ i => rw [show a + (i + 1) = a + 1 + i by omega]; exact h1 i (by omega)
      · rw [show a + (1 + effectiveLength m (a + 1) k) = a + 1 + effectiveLength m (a + 1) k by omega]
        exact h2 (by omega)

/-- The length is the only one that R181 allows. -/
theorem effectiveLength_eq {m : Memory} {a k n : Nat} (hn : n ≤ k) (h1 : ∀ i, i < n → m.byteAt (a + i) ≠ Config.term)
    (h2 : n < k → m.byteAt (a + n) = Config.term) : effectiveLength m a k = n := by
  obtain ⟨g1, g2⟩ := effectiveLength_spec m a k
  have hle := effectiveLength_le m a k
  rcases Nat.lt_trichotomy (effectiveLength m a k) n with h | h | h
  · exact absurd (g2 (by omega)) (h1 _ h)
  · exact h
  · exact absurd (h2 (by omega)) (g1 _ h)

/-- The scan looks at no byte but those it reads. -/
theorem effectiveLength_congr {m m' : Memory} {a k : Nat}
    (h : ∀ i, i < scanLength m a k → m.byteAt (a + i) = m'.byteAt (a + i)) :
    effectiveLength m' a k = effectiveLength m a k ∧ scanLength m' a k = scanLength m a k := by
  induction k generalizing a with
  | zero => simp [effectiveLength, scanLength]
  | succ k ih =>
    have h0 := h 0 (by rw [scanLength]; split <;> omega)
    simp only [Nat.add_zero] at h0
    rw [effectiveLength, effectiveLength, scanLength, scanLength, ← h0]
    by_cases ht : m.byteAt a = Config.term
    · simp [ht]
    · simp only [ht, if_false]
      obtain ⟨e1, e2⟩ := ih (a := a + 1) (fun i hi => by
        rw [show a + 1 + i = a + (i + 1) by omega]
        exact h _ (by rw [scanLength, if_neg ht]; omega))
      rw [e1, e2]
      exact ⟨rfl, rfl⟩

/-! ### The writes the engine does not see yet (20_memory.md R62) -/

theorem Cells.byteFor_remove (m : Cells) (a x : Nat) :
    Cells.byteFor (Memory.remove m a) x = if x = a then none else m.byteFor x := by
  induction m with
  | nil => simp [Memory.remove, Cells.byteFor]
  | cons c m ih =>
    obtain ⟨b, w⟩ := c
    rw [Memory.remove, List.filter_cons]
    by_cases hb : b = a
    · rw [if_neg (by simp [hb])]
      refine ih.trans ?_
      by_cases hx : x = a
      · simp [hx]
      · simp [hx, hb, Cells.byteFor, Ne.symm hx]
    · rw [if_pos (by simp [hb]), Cells.byteFor]
      by_cases hx : b = x
      · simp [Cells.byteFor, hx, hx ▸ hb]
      · rw [if_neg hx, Cells.byteFor, if_neg hx]
        exact ih

theorem Cells.byteFor_put (m : Cells) (a x : Nat) (v : Byte) (h : ∀ c ∈ m, c.1 ≠ a) :
    Cells.byteFor (Memory.put a v m) x = if x = a then some v else m.byteFor x := by
  induction m with
  | nil => simp [Memory.put, Cells.byteFor, eq_comm]
  | cons c m ih =>
    obtain ⟨b, w⟩ := c
    have hb : b ≠ a := h (b, w) (by simp)
    have ih := ih fun d hd => h d (by simp [hd])
    rw [Memory.put]
    split
    · simp only [Cells.byteFor, eq_comm]
    · simp only [Cells.byteFor, ih]
      by_cases hx : b = x
      · simp [hx, hx ▸ hb]
      · simp [hx]

theorem Memory.ne_of_mem_remove {m : Memory} {a : Nat} : ∀ c ∈ m.remove a, c.1 ≠ a := by
  intro c hc
  simpa using (List.mem_filter.1 hc).2

/-- A cell set is read back, and no other cell changes. -/
theorem Cells.byteFor_assign (m : Cells) (a x : Nat) (v : Byte) :
    (m.assign a v).byteFor x = if x = a then some v else m.byteFor x := by
  rw [Cells.assign, Cells.byteFor_put _ _ _ _ Memory.ne_of_mem_remove, Cells.byteFor_remove]
  split <;> rfl

theorem Cells.byteFor_assignBytes (m : Cells) (a x : Nat) (bs : List Byte) :
    (m.assignBytes a bs).byteFor x = if a ≤ x ∧ x < a + bs.length then some (bs.getD (x - a) 0#8) else m.byteFor x := by
  induction bs generalizing m a with
  | nil => simp [Cells.assignBytes]
  | cons b bs ih =>
    rw [Cells.assignBytes, ih, Cells.byteFor_assign]
    by_cases hx : x = a
    · subst hx
      rw [if_neg (by omega), if_pos rfl, if_pos (by simp)]
      simp
    · by_cases h : a + 1 ≤ x ∧ x < a + 1 + bs.length
      · rw [if_pos h, if_pos (by simp; omega), show x - a = (x - (a + 1)) + 1 by omega]
        simp
      · rw [if_neg h, if_neg hx, if_neg (by simp; omega)]

theorem Cells.sorted_assign {m : Cells} (a : Nat) (v : Byte) (h : Memory.sorted m = true) :
    Memory.sorted (m.assign a v) = true :=
  Memory.sorted_put a v (Memory.sorted_remove a h) Memory.ne_of_mem_remove

theorem Cells.sorted_assignBytes {m : Cells} (a : Nat) (bs : List Byte) (h : Memory.sorted m = true) :
    Memory.sorted (m.assignBytes a bs) = true := by
  induction bs generalizing m a with
  | nil => exact h
  | cons b bs ih => exact ih (a + 1) (Cells.sorted_assign a b h)

theorem Cells.mem_assignBytes {m : Cells} {a : Nat} {bs : List Byte} {c : Host.Cell} (h : c ∈ m.assignBytes a bs) :
    (a ≤ c.1 ∧ c.1 < a + bs.length) ∨ c ∈ m := by
  induction bs generalizing m a with
  | nil => exact .inr h
  | cons b bs ih =>
    rcases ih h with h | h
    · exact .inl ⟨by omega, by simp; omega⟩
    · rcases Memory.mem_put h with rfl | h
      · exact .inl ⟨by simp, by simp⟩
      · exact .inr (List.mem_of_mem_filter h)

theorem Cells.mem_of_byteFor {m : Cells} {a : Nat} {v : Byte} (h : m.byteFor a = some v) : (a, v) ∈ m := by
  induction m with
  | nil => cases h
  | cons c m ih =>
    obtain ⟨b, w⟩ := c
    rw [Cells.byteFor] at h
    split at h
    · cases h; simp_all
    · simp [ih h]

/-- Written cells read back as the list holds them, and every other byte reads as before. -/
theorem Memory.byteAt_writeCells (m : Memory) (l : Cells) (x : Nat) :
    (m.writeCells l).byteAt x = (l.byteFor x).getD (m.byteAt x) := by
  induction l with
  | nil => rfl
  | cons c l ih =>
    obtain ⟨a, v⟩ := c
    rw [Memory.writeCells, Memory.byteAt_write, Cells.byteFor]
    by_cases hx : x = a
    · simp [hx]
    · simp [hx, Ne.symm hx, ih]

theorem Memory.wf_writeCells {m : Memory} (l : Cells) (h : m.wf = true) : (m.writeCells l).wf = true := by
  induction l with
  | nil => exact h
  | cons c l ih => exact Memory.wf_write _ _ ih

theorem Memory.mem_writeCells {m : Memory} {l : Cells} {c : Host.Cell} (h : c ∈ m.writeCells l) : c ∈ l ∨ c ∈ m := by
  induction l with
  | nil => exact .inr h
  | cons d l ih =>
    rcases Memory.mem_write h with ⟨rfl, -⟩ | h
    · simp
    · rcases ih h with h | h
      · simp [h]
      · exact .inr h

end Sys2Proof.Machine
end

