-- ==== Sys2Proof/Laws/Bus.lean ====
section
/-! SUPPORT. What the host's accesses and the reset event can do. -/

namespace Sys2Proof.Machine

/-- The register map of 10_state.md R21 read both ways. -/
theorem Reg.ofOffset_offset (r : Reg) : Reg.ofOffset r.offset = some r := by cases r <;> rfl

theorem busReg_offset (p : Platform) (r : Reg) : busReg p (p.regBase + r.offset) .w32 = some r := by
  simp [busReg, Reg.ofOffset_offset]

theorem reachesBlock_offset (p : Platform) (r : Reg) : reachesBlock p (p.regBase + r.offset) .w32 = true := by
  rw [reachesBlock, rangesOverlap_eq_true]
  exact ⟨p.regBase + r.offset, by omega, by simp [BusWidth.bytes], by omega,
    by cases r <;> simp [Reg.offset, Config.regSpan]⟩

/-- RD of a register of the block (40_command_interface.md R100). -/
theorem hostRegRead_offset (r : Reg) (s : State) :
    hostRegRead (s.plat.regBase + r.offset) .w32 s = .next (readReg r s) := by
  simp [hostRegRead, reachesBlock_offset, busReg_offset]

/-- WR of a register of the block (R101, R102). -/
theorem hostRegWrite_offset (r : Reg) (v : Word) (s : State) :
    hostRegWrite (s.plat.regBase + r.offset) .w32 v s = .next (writeReg r v s) := by
  simp [hostRegWrite, reachesBlock_offset, busReg_offset]

theorem hostRegRead_next {a : Nat} {w : BusWidth} {s t : State} (h : hostRegRead a w s = .next t) :
    (∃ r, busReg s.plat a w = some r ∧ t = readReg r s) ∨ (reachesBlock s.plat a w = false ∧ t = { s with rdData := none }) := by
  unfold hostRegRead at h
  split at h
  · split at h
    · rename_i r hr
      cases h
      exact .inl ⟨r, hr, rfl⟩
    · cases h
  · rename_i hb
    cases h
    exact .inr ⟨by simpa using hb, rfl⟩

theorem hostRegWrite_next {a : Nat} {w : BusWidth} {v : Word} {s t : State} (h : hostRegWrite a w v s = .next t) :
    (∃ r, busReg s.plat a w = some r ∧ t = writeReg r v s) ∨ (reachesBlock s.plat a w = false ∧ t = s) := by
  unfold hostRegWrite at h
  split at h
  · split at h
    · rename_i r hr
      cases h
      exact .inl ⟨r, hr, rfl⟩
    · cases h
  · rename_i hb
    cases h
    exact .inr ⟨by simpa using hb, rfl⟩

/-- A host buffer access goes through exactly when every byte has storage and is not closed to the host (R245). -/
theorem hostRefusal_eq_none (s : State) (a n : Nat) :
    hostRefusal s a n = none ↔ ∀ i, i < n → s.plat.valid (a + i) = true ∧ s.inUse (a + i) = false := by
  induction n generalizing a with
  | zero => simp [hostRefusal]
  | succ n ih =>
    rw [hostRefusal]
    constructor
    · intro h i hi
      split at h
      · cases h
      · rename_i hv
        split at h
        · cases h
        · rename_i hu
          cases i with
          | zero => exact ⟨by simpa using hv, by simpa using hu⟩
          | succ i => rw [show a + (i + 1) = a + 1 + i by omega]; exact (ih _).1 h i (by omega)
    · intro h
      have h0 := h 0 (by omega)
      simp only [Nat.add_zero] at h0
      rw [if_neg (by simp [h0.1]), if_neg (by simp [h0.2]), ih]
      intro i hi
      rw [show a + 1 + i = a + (i + 1) by omega]
      exact h _ (by omega)

theorem hostBufRead_next {a n : Nat} {s t : State} (h : hostBufRead a n s = .next t) :
    hostRefusal s a n = none ∧ t = { s with bufData := s.hostBytes a n } := by
  unfold hostBufRead at h
  split at h
  · cases h
  · cases h
    exact ⟨by assumption, rfl⟩

theorem hostBufWrite_next {a : Nat} {bs : List Byte} {s t : State} (h : hostBufWrite a bs s = .next t) :
    hostRefusal s a bs.length = none ∧ t = s.hostStore a bs := by
  unfold hostBufWrite at h
  split at h
  · cases h
  · cases h
    exact ⟨by assumption, rfl⟩

theorem firstInUse_eq_none (s : State) (l : Cells) : firstInUse s l = none ↔ ∀ c ∈ l, s.inUse c.1 = false := by
  induction l with
  | nil => simp [firstInUse]
  | cons c l ih =>
    rw [firstInUse]
    split
    · rename_i h; simp [h]
    · rename_i h; simp [ih, h]

/-- Every next state of a publish: no write reaches a buffer closed to the host, and every one reaches memory. -/
theorem hostPublish_next {s t : State} (h : hostPublish s = .next t) :
    (∀ c ∈ s.unseen, s.inUse c.1 = false) ∧
    t = { s with mem := s.mem.writeCells s.unseen, unseen := [],
                 hostMem := s.hostCopy (s.hostMem.writeCells s.unseen) } := by
  unfold hostPublish at h
  split at h
  · cases h
  · cases h
    exact ⟨(firstInUse_eq_none _ _).1 (by assumption), rfl⟩

/-- Every next state of a settle: one host write reaches memory, or one byte of memory reaches the host. -/
theorem settleByte_next {a : Nat} {s t : State} (h : settleByte a s = .next t) :
    (∃ v, s.unseen.byteFor a = some v ∧ s.inUse a = false ∧
      t = { s with mem := s.mem.write a v, unseen := Memory.remove s.unseen a,
                   hostMem := s.hostCopy (s.hostMem.write a v) }) ∨
    (s.unseen.byteFor a = none ∧ t = { s with hostMem := s.hostCopy (s.hostMem.write a (s.mem.byteAt a)) }) := by
  unfold settleByte at h
  split at h
  · rename_i v hv
    split at h
    · cases h
    · rename_i hu
      cases h
      exact .inl ⟨v, hv, by simpa using hu, rfl⟩
  · cases h
    exact .inr ⟨by assumption, rfl⟩

/-- Where every host write is visible at once and none is pending, a host store is a store to memory. -/
theorem byteAt_hostStore (s : State) (a x : Nat) (bs : List Byte) :
    (s.hostStore a bs).mem.byteAt x =
      if s.plat.ordering.toEngine = .atOnce ∧ a ≤ x ∧ x < a + bs.length then bs.getD (x - a) 0#8 else s.mem.byteAt x := by
  unfold State.hostStore
  cases h : s.plat.ordering.toEngine <;> simp [Memory.byteAt_store]

/-- The host reads back what it wrote, and every other byte as before (20_memory.md R58). -/
theorem hostByte_hostStore {s : State} (h : s.plat.ordering.toEngine = .atOnce → s.unseen = []) (a x : Nat)
    (bs : List Byte) :
    (s.hostStore a bs).hostByte x = if a ≤ x ∧ x < a + bs.length then bs.getD (x - a) 0#8 else s.hostByte x := by
  unfold State.hostStore
  cases he : s.plat.ordering.toEngine with
  | atOnce =>
    simp only [State.hostByte, h he, Cells.byteFor, State.hostCopy]
    cases hh : s.plat.ordering.toHost <;> simp [Memory.byteAt_store]
  | onFence =>
    simp only [State.hostByte, Cells.byteFor_assignBytes]
    by_cases hx : a ≤ x ∧ x < a + bs.length
    · simp only [if_pos hx]
    · simp only [if_neg hx]

theorem length_hostBytes (s : State) (a n : Nat) : (s.hostBytes a n).length = n := by
  induction n generalizing a with
  | zero => rfl
  | succ n ih => simp [State.hostBytes, ih]

theorem getElem?_hostBytes (s : State) (a n i : Nat) (h : i < n) : (s.hostBytes a n)[i]? = some (s.hostByte (a + i)) := by
  induction n generalizing a i with
  | zero => omega
  | succ n ih =>
    cases i with
    | zero => rfl
    | succ i => rw [State.hostBytes, List.getElem?_cons_succ, ih _ _ (by omega)]; congr 2; omega

/-- v mod 2^AW fits AW bits (10_state.md R28). -/
theorem addressValue_lt (p : Platform) (v : Word) : (addressValue p v).toNat < 2 ^ p.aw := by
  have h : v.toNat % 2 ^ p.aw < 2 ^ p.aw := Nat.mod_lt _ (Nat.two_pow_pos _)
  rw [addressValue, BitVec.toNat_ofNat]
  exact Nat.lt_of_le_of_lt (Nat.mod_le _ _) h

theorem toNat_addressValue (p : Platform) (v : Word) : (addressValue p v).toNat = v.toNat % 2 ^ p.aw := by
  have h : v.toNat % 2 ^ p.aw ≤ v.toNat := Nat.mod_le _ _
  rw [addressValue, BitVec.toNat_ofNat]
  exact Nat.mod_eq_of_lt (Nat.lt_of_le_of_lt h v.isLt)

/-- What a register write can do: issue a command while idle, acknowledge, be dropped with OVR, write one argument
register while idle, or nothing. -/
theorem writeReg_cases (r : Reg) (v : Word) (s : State) :
    (r = .cmd ∧ s.busy = false ∧ writeReg r v s = issue v s) ∨
    (r = .status ∧ writeReg r v s = statusWrite v s) ∨
    (s.busy = true ∧ writeReg r v s = overrun s) ∨
    (r = .srcAddr ∧ s.busy = false ∧ writeReg r v s = { s with srcAddr := addressValue s.plat v }) ∨
    (r = .srcLen ∧ s.busy = false ∧ writeReg r v s = { s with srcLen := v }) ∨
    (r = .dstAddr ∧ s.busy = false ∧ writeReg r v s = { s with dstAddr := addressValue s.plat v }) ∨
    (r = .dstCap ∧ s.busy = false ∧ writeReg r v s = { s with dstCap := v }) ∨
    writeReg r v s = s := by
  cases hb : s.busy <;> cases r <;> simp [writeReg, hb, writeIdle, writeBusy]

end Sys2Proof.Machine
end

