-- ==== Sys2Proof/Laws/Exec.lean ====
section
/-! SUPPORT. What the two commands can do: one lemma a shared operation and a meaning, for the proofs to cite. -/

namespace Sys2Proof.Machine

/-- A store that ends a command: it completes when its range is valid, and faults at the first invalid address else. -/
theorem storeAndComplete_next {a n : Nat} {bs : List Byte} {s t : State} :
    storeAndComplete a bs n s = .next t ↔
      firstInvalid s.plat a bs.length = none ∧ t = complete .ok n { s with mem := s.mem.store a bs } := by
  unfold storeAndComplete
  cases firstInvalid s.plat a bs.length with
  | none => simp [eq_comm]
  | some bad => simp

theorem storeAndComplete_fault {a n : Nat} {bs : List Byte} {s : State} {f : Fault} :
    storeAndComplete a bs n s = .fault f ↔ ∃ bad, firstInvalid s.plat a bs.length = some bad ∧ f = .emem bad := by
  unfold storeAndComplete
  cases firstInvalid s.plat a bs.length with
  | none => simp
  | some bad => simp [eq_comm]

theorem storeAndComplete_not_refused {a n : Nat} {bs : List Byte} {s : State} {r : Refusal} :
    storeAndComplete a bs n s ≠ .refused r := by
  unfold storeAndComplete
  cases firstInvalid s.plat a bs.length <;> simp

@[simp] theorem exec_encode (sp dp : Bool) (s : State) : exec (.encode sp dp) s = execEncode sp dp s := rfl

@[simp] theorem exec_decode (sp dp : Bool) (s : State) : exec (.decode sp dp) s = execDecode sp dp s := rfl

/-- Every next state of ENCODE (42_encode.md R145): absent reference, short capacity, or the whole transform. -/
theorem execEncode_next {sp dp : Bool} {s t : State} (h : execEncode sp dp s = .next t) :
    ((sp && dp) = false ∧ t = complete .earg 0 s) ∨
    ((sp && dp) = true ∧ s.dstCap.toNat < encodeNeed s.srcLen.toNat ∧ t = complete .ecap 0 s) ∨
    ((sp && dp) = true ∧ encodeNeed s.srcLen.toNat ≤ s.dstCap.toNat ∧
      rangesOverlap s.srcAddr.toNat s.srcLen.toNat s.dstAddr.toNat (encodeNeed s.srcLen.toNat) = false ∧
      firstInvalid s.plat s.srcAddr.toNat s.srcLen.toNat = none ∧
      firstInvalid s.plat s.dstAddr.toNat (encodeOutput s).length = none ∧
      t = complete .ok (textLength s.srcLen.toNat) { s with mem := s.mem.store s.dstAddr.toNat (encodeOutput s) }) := by
  unfold execEncode at h
  simp only at h
  split at h
  · rename_i hp
    cases h
    exact .inl ⟨by rw [← Bool.not_eq_true']; exact hp, rfl⟩
  · rename_i hp
    have hp : (sp && dp) = true := by simpa using hp
    split at h
    · rename_i hc
      cases h
      exact .inr (.inl ⟨hp, hc, rfl⟩)
    · rename_i hc
      split at h
      · cases h
      · rename_i ho
        split at h
        · cases h
        · rename_i hr
          obtain ⟨hw, ht⟩ := storeAndComplete_next.1 h
          exact .inr (.inr ⟨hp, by omega, by simpa using ho, hr, hw, ht⟩)

/-- Every next state of DECODE (43_decode.md R189). -/
theorem execDecode_next {sp dp : Bool} {s t : State} (h : execDecode sp dp s = .next t) :
    ((sp && dp) = false ∧ t = complete .earg 0 s) ∨
    ((sp && dp) = true ∧ firstInvalid s.plat s.srcAddr.toNat (decodeScan s) = none ∧
      ((decodeLength s = 0 ∧ t = complete .ok 0 s) ∨
       (decodeLength s ≠ 0 ∧ decodeLength s < 4 ∧ t = complete .elen 0 s) ∨
       (4 ≤ decodeLength s ∧ s.dstCap.toNat < expectedLength (decodeText s) ∧ t = complete .ecap 0 s) ∨
       (4 ≤ decodeLength s ∧ expectedLength (decodeText s) ≤ s.dstCap.toNat ∧
        rangesOverlap s.srcAddr.toNat (decodeScan s) s.dstAddr.toNat (expectedLength (decodeText s)) = false ∧
        firstInvalid s.plat s.dstAddr.toNat (decodeGroups (decodeText s)).length = none ∧
        t = complete .ok (decodeGroups (decodeText s)).length
          { s with mem := s.mem.store s.dstAddr.toNat (decodeGroups (decodeText s)) }))) := by
  unfold execDecode at h
  split at h
  · rename_i hp
    cases h
    exact .inl ⟨by rw [← Bool.not_eq_true']; exact hp, rfl⟩
  · rename_i hp
    have hp : (sp && dp) = true := by simpa using hp
    split at h
    · cases h
    · rename_i hr
      refine .inr ⟨hp, hr, ?_⟩
      split at h
      · rename_i h0
        cases h
        exact .inl ⟨h0, rfl⟩
      · rename_i h0
        split at h
        · rename_i h4
          rw [truncatedLength] at h4
          cases h
          exact .inr (.inl ⟨h0, by omega, rfl⟩)
        · rename_i h4
          rw [truncatedLength] at h4
          split at h
          · rename_i hc
            cases h
            exact .inr (.inr (.inl ⟨by omega, hc, rfl⟩))
          · rename_i hc
            split at h
            · cases h
            · rename_i ho
              obtain ⟨hw, ht⟩ := storeAndComplete_next.1 h
              exact .inr (.inr (.inr ⟨by omega, by omega, by simpa using ho, hw, ht⟩))

/-- Every next state of the engine step is a completion of the state before it, with some bytes stored from DST_ADDR up,
all of them at valid addresses. -/
theorem perform_next {s t : State} (h : perform s = .next t) :
    ∃ code n bs, firstInvalid s.plat s.dstAddr.toNat bs.length = none ∧
      t = complete code n { s with mem := s.mem.store s.dstAddr.toNat bs } := by
  unfold perform at h
  split at h
  · rename_i i _
    cases i with
    | encode sp dp =>
      rcases execEncode_next h with ⟨-, rfl⟩ | ⟨-, -, rfl⟩ | ⟨-, -, -, -, hw, rfl⟩
      · exact ⟨_, _, [], rfl, rfl⟩
      · exact ⟨_, _, [], rfl, rfl⟩
      · exact ⟨_, _, _, hw, rfl⟩
    | decode sp dp =>
      rcases execDecode_next h with ⟨-, rfl⟩ | ⟨-, -, ⟨-, rfl⟩ | ⟨-, -, rfl⟩ | ⟨-, -, rfl⟩ | ⟨-, -, -, hw, rfl⟩⟩
      · exact ⟨_, _, [], rfl, rfl⟩
      · exact ⟨_, _, [], rfl, rfl⟩
      · exact ⟨_, _, [], rfl, rfl⟩
      · exact ⟨_, _, [], rfl, rfl⟩
      · exact ⟨_, _, _, hw, rfl⟩
  · cases h
    exact ⟨_, _, [], rfl, rfl⟩

theorem engineTurn_next {s t : State} (h : engineTurn s = .next t) :
    (s.busy = true ∧ perform s = .next t) ∨ (s.busy = false ∧ t = s) := by
  unfold engineTurn at h
  split at h
  · exact .inl ⟨by assumption, h⟩
  · cases h
    exact .inr ⟨by simpa using ‹¬s.busy = true›, rfl⟩

end Sys2Proof.Machine
end

