-- ==== Sys2Proof/Laws/PerInstr.lean ====
section
/-! SUPPORT. A statement about every command as syntax, one lemma a constructor. -/

namespace Sys2Proof.Laws.EncodedWord

/-- The command is well formed and its word has zero reserved fields, its OP and its presence bits (30_encoding.md R71). -/
def Statement (i : Instr) : Prop :=
  i.wf = true ∧ reservedHigh (encodeCmd i) = 0#22 ∧ reservedLow (encodeCmd i) = 0#4 ∧
    opField (encodeCmd i) = i.op ∧ spField (encodeCmd i) = i.sp ∧ dpField (encodeCmd i) = i.dp

theorem encode (sp dp : Bool) : Statement (.encode sp dp) := by
  unfold Statement; cases sp <;> cases dp <;> decide

theorem decode (sp dp : Bool) : Statement (.decode sp dp) := by
  unfold Statement; cases sp <;> cases dp <;> decide

end Sys2Proof.Laws.EncodedWord
end

