-- ==== Sys2Proof/Laws/Step.lean ====
section
/-! SUPPORT. What one step can do (40_command_interface.md R110), said once. -/

namespace Sys2Proof.Machine

theorem step_nil {s : State} (h : s.inputs = []) : step s = engineTurn s := by
  simp [step, advance, h]

theorem step_cons {s : State} {e : Event} {rest : List Event} (h : s.inputs = e :: rest) :
    step s = runEvent e { s with inputs := rest } := by
  simp [step, advance, h]

/-- The engine's turn at `s` when no event is left, or the next event at `s` without it. -/
theorem step_next {s t : State} (h : step s = .next t) :
    (s.inputs = [] ∧ engineTurn s = .next t) ∨
    ∃ e rest, s.inputs = e :: rest ∧ runEvent e { s with inputs := rest } = .next t := by
  cases hs : s.inputs with
  | nil => exact .inl ⟨rfl, step_nil hs ▸ h⟩
  | cons e rest => exact .inr ⟨e, rest, rfl, step_cons hs ▸ h⟩

/-- Every next state of an event. -/
theorem runEvent_next {e : Event} {s t : State} (h : runEvent e s = .next t) :
    (∃ a w, e = .regRead a w ∧ hostRegRead a w s = .next t) ∨
    (∃ a w v, e = .regWrite a w v ∧ hostRegWrite a w v s = .next t) ∨
    (∃ a n, e = .bufRead a n ∧ hostBufRead a n s = .next t) ∨
    (∃ a bs, e = .bufWrite a bs ∧ hostBufWrite a bs s = .next t) ∨
    (e = .publish ∧ hostPublish s = .next t) ∨
    (e = .acquire ∧ t = hostAcquire s) ∨
    (∃ a, e = .settle a ∧ settleByte a s = .next t) ∨
    (e = .engine ∧ engineTurn s = .next t) ∨
    (e = .reset ∧ t = resetEvent s) := by
  cases e with
  | regRead a w => exact .inl ⟨a, w, rfl, h⟩
  | regWrite a w v => exact .inr (.inl ⟨a, w, v, rfl, h⟩)
  | bufRead a n => exact .inr (.inr (.inl ⟨a, n, rfl, h⟩))
  | bufWrite a bs => exact .inr (.inr (.inr (.inl ⟨a, bs, rfl, h⟩)))
  | publish => exact .inr (.inr (.inr (.inr (.inl ⟨rfl, h⟩))))
  | acquire => cases h; exact .inr (.inr (.inr (.inr (.inr (.inl ⟨rfl, rfl⟩)))))
  | settle a => exact .inr (.inr (.inr (.inr (.inr (.inr (.inl ⟨a, rfl, h⟩))))))
  | engine => exact .inr (.inr (.inr (.inr (.inr (.inr (.inr (.inl ⟨rfl, h⟩)))))))
  | reset => cases h; exact .inr (.inr (.inr (.inr (.inr (.inr (.inr (.inr ⟨rfl, rfl⟩)))))))
  | secondHost => cases h

/-- The footprint of a command depends on CMD, the argument registers and the bytes it reads, alone. -/
theorem footprint_congr {s t : State} (hc : t.cmd = s.cmd) (h1 : t.srcAddr = s.srcAddr)
    (h2 : t.srcLen = s.srcLen) (h3 : t.dstAddr = s.dstAddr) (h4 : t.dstCap = s.dstCap)
    (hm : ∀ a, (footprint s).reads a = true → s.mem.byteAt a = t.mem.byteAt a) : footprint t = footprint s := by
  unfold footprint at hm ⊢
  rw [hc]
  cases hd : decodeCmd s.cmd with
  | error e => rfl
  | ok i =>
    cases i with
    | encode sp dp => simp [encodeFootprint, h1, h2, h3, h4]
    | decode sp dp =>
      simp only [hd, decodeFootprint] at hm ⊢
      by_cases hsd : (sp && dp) = true
      · simp only [hsd, if_true, Footprint.reads, Bool.and_eq_true, decide_eq_true_eq] at hm
        have hb : ∀ i, i < decodeScan s → s.mem.byteAt (s.srcAddr.toNat + i) = t.mem.byteAt (s.srcAddr.toNat + i) :=
          fun i hi => hm _ ⟨by omega, by omega⟩
        obtain ⟨e1, e2⟩ := effectiveLength_congr hb
        have hl : decodeLength t = decodeLength s := by rw [decodeLength, decodeLength, h1, h2, e1]
        have hs : decodeScan t = decodeScan s := by rw [decodeScan, decodeScan, h1, h2, e2]
        have hx : decodeText t = decodeText s := by
          rw [decodeText, decodeText, hl, h1]
          refine Memory.bytesAt_congr fun i hi => (hb i ?_).symm
          have := effectiveLength_le_scan s.mem s.srcAddr.toNat s.srcLen.toNat
          have : decodeLength s ≤ decodeScan s := this
          rw [truncatedLength] at hi
          omega
        simp [hsd, hs, hx, h1, h3]
      · simp [hsd]

end Sys2Proof.Machine
end

