-- ==== Sys2Proof/Tests/Slice0.lean ====
section
/-! SUPPORT. The model's own tests, expected values from spec/ (95_test_vectors.md unless another file is named), and a
witness for the hypotheses of every statement. -/

namespace Sys2Proof.Tests

set_option Elab.async false

open Sys2Proof Sys2Proof.Machine

/-! ### Helpers -/

/-- A platform with 16-bit addresses, the register block at 0x40, and storage at 0x1000 .. 0x103F only. -/
def small : Platform :=
  { aw := 16, regBase := 0x40, regions := [{ base := 0x1000, size := 0x40 }],
    ordering := { toEngine := .atOnce, toHost := .atOnce } }

/-- The same platform, where neither side sees the other's writes to buffer memory at once (20_memory.md R62). -/
def fenced : Platform := { small with ordering := { toEngine := .onFence, toHost := .onFence } }

/-- The reference platform with another address width and register base. -/
def platformOf (aw regBase : Nat) : Platform := { Platform.reference with aw := aw, regBase := regBase }

/-- An idle machine on it, with bytes in memory from 0x1000 up and the events to come. -/
def idle (bytes : List Byte) (inputs : List Event) : State :=
  { State.resetOn small with mem := Memory.store [] 0x1000 bytes, inputs := inputs }

/-- The machine with its argument registers set and a command word issued, no event to come. -/
def issued (w src len dst cap : Word) (bytes : List Byte) : State :=
  issue w { idle bytes [] with srcAddr := src, srcLen := len, dstAddr := dst, dstCap := cap }

/-- ENCODE with both references, from 0x1000 to 0x1010. -/
def enc (bytes : List Byte) (cap : Word) : State :=
  issued 0x301#32 0x1000#32 (BitVec.ofNat 32 bytes.length) 0x1010#32 cap bytes

/-- DECODE with both references, from 0x1000 to 0x1010. -/
def dec (text : List Byte) (len cap : Word) : State := issued 0x302#32 0x1000#32 len 0x1010#32 cap text

/-- The outcome is a next state with the property. -/
def nextHas (o : Host.Outcome State Fault Refusal) (p : State → Bool) : Bool :=
  match o with
  | .next t => p t
  | .fault _ => false
  | .refused _ => false

theorem next_of_nextHas {o : Host.Outcome State Fault Refusal} {p : State → Bool} (h : nextHas o p = true) :
    ∃ t, o = .next t ∧ p t = true := by
  cases o with
  | next t => exact ⟨t, rfl, h⟩
  | fault f => cases h
  | refused r => cases h

def faultOf (o : Host.Outcome State Fault Refusal) : Option Fault :=
  match o with
  | .next _ => none
  | .fault f => some f
  | .refused _ => none

theorem fault_of_faultOf {o : Host.Outcome State Fault Refusal} {f : Fault} (h : faultOf o = some f) : o = .fault f := by
  cases o with
  | next t => cases h
  | fault g => cases h; rfl
  | refused r => cases h

def refusalOf (o : Host.Outcome State Fault Refusal) : Option Refusal :=
  match o with
  | .next _ => none
  | .fault _ => none
  | .refused r => some r

theorem refused_of_refusalOf {o : Host.Outcome State Fault Refusal} {r : Refusal} (h : refusalOf o = some r) :
    o = .refused r := by
  cases o with
  | next t => cases h
  | fault g => cases h
  | refused q => cases h; rfl

/-- The outcome is a completion with this ERR, RESULT, and bytes from 0x1010 up. -/
def endsWith (o : Host.Outcome State Fault Refusal) (err result : Nat) (bytes : List Byte) : Bool :=
  nextHas o fun t => t.err.toNat == err && t.result.toNat == result && t.mem.bytesAt 0x1010 bytes.length == bytes
    && t.done && !t.busy

theorem validRange_of {p : Platform} {a n : Nat} (h : firstInvalid p a n = none) : validRange p a n :=
  (firstInvalid_eq_none p a n).1 h

theorem apart_of {a n b k : Nat} (h : rangesOverlap a n b k = false) : apart a n b k :=
  (rangesOverlap_eq_false a n b k).1 h

/-! ### Decoding: words written out from 30_encoding.md R71 and R73 -/

/-- 0x301, bit by bit: reserved[31:10] = 0, DP = 1, SP = 1, reserved[7:4] = 0, OP = 0001. -/
theorem test_decode_word_encode :
    decodeCmd 0b0000000000000000000000_1_1_0000_0001#32 = .ok (.encode true true) ∧
    decodeTableWord 32 0x101 = some (.encode true false) ∧ decodeTableWord 32 0x001 = some (.encode false false) := by
  decide

/-- 0x302: OP = 0010. -/
theorem test_decode_word_decode :
    decodeCmd 0b0000000000000000000000_1_1_0000_0010#32 = .ok (.decode true true) ∧
    decodeTableWord 32 0x202 = some (.decode false true) ∧ decodeTableWord 32 0x002 = some (.decode false false) := by
  decide

/-- The Reserved words of section 2.6. -/
theorem test_decode_word_reserved :
    (∀ w ∈ [0x00000000, 0x00000303, 0x0000030F, 0x00000311, 0x00000381, 0x00000701, 0x80000302, 0xFFFFFFFF],
      decodeTableWord 32 w = none) ∧
    decodeCmd 0x00000311#32 = .error .reservedBits ∧ decodeCmd 0x00000303#32 = .error .reservedOp := by
  decide

/-- A value of more than 32 bits is no command word (R70). -/
theorem test_decode_word_too_long : decodeTableWord 40 0x100000301 = none := by decide

/-! ### Well-formedness: an ill-formed term for each check -/

/-- AW = 0 and AW = 33 are refused, 1 and 32 are not (00_scope.md R7). -/
theorem test_wf_refuses_address_width :
    (platformOf 0 0).wf = false ∧ (platformOf 33 0).wf = false ∧ (platformOf 1 0).wf = true ∧ (platformOf 32 0).wf = true := by
  decide

/-- A REG_BASE off a 32-byte boundary is refused (R7). -/
theorem test_wf_refuses_register_base :
    (platformOf 32 0x30).wf = false ∧ (platformOf 32 0x40).wf = true := by decide

/-- No term of `Instr` is ill formed (R71): the check of a command word is the decoder's, above. -/
theorem test_wf_every_command : ∀ sp dp : Bool, (Instr.encode sp dp).wf = true ∧ (Instr.decode sp dp).wf = true := by
  decide

/-! ### Data formats -/

/-- EG4, EG2, EG3: "TWFu", "/w==", "AP8=". -/
theorem test_group_packer :
    encGroup3 0x4D 0x61 0x6E = [0x54, 0x57, 0x46, 0x75] ∧ encGroup1 0xFF = [0x2F, 0x77, 0x3D, 0x3D] ∧
    encGroup2 0x00 0xFF = [0x41, 0x50, 0x38, 0x3D] := by decide

/-- DG4, DG8, DG10, DG12, DG13, DG14. -/
theorem test_group_unpacker :
    decGroup 0x2B 0x2F 0x2B 0x2F = { ok := true, out := [0xFB, 0xFF, 0xBF], stop := false } ∧
    decGroup 0x41 0x42 0x3D 0x43 = { ok := true, out := [0x00], stop := true } ∧
    decGroup 0x2F 0x78 0x3D 0x3D = { ok := true, out := [0xFF], stop := true } ∧
    decGroup 0x41 0x42 0x43 0x3D = { ok := true, out := [0x00, 0x10], stop := true } ∧
    decGroup 0x41 0x42 0x3D 0x21 = { ok := false, out := [], stop := true } ∧
    decGroup 0x41 0x3D 0x3D 0x3D = { ok := false, out := [], stop := true } := by decide

/-- E9 and DV36: "foobar" and "Zm9vYmFy". -/
theorem test_whole_buffer :
    encodeBytes [0x66, 0x6F, 0x6F, 0x62, 0x61, 0x72] = [0x5A, 0x6D, 0x39, 0x76, 0x59, 0x6D, 0x46, 0x79] ∧
    decodeGroups [0x5A, 0x6D, 0x39, 0x76, 0x59, 0x6D, 0x46, 0x79] = [0x66, 0x6F, 0x6F, 0x62, 0x61, 0x72] := by decide

/-! ### The two commands, one step each -/

/-- E17: one byte 0xFF, capacity 12; the bytes after TERM keep the filler. -/
theorem test_encode_one_byte :
    endsWith (step (enc [0xFF] 12#32)) 0 4 [0x2F, 0x77, 0x3D, 0x3D, 0x00, 0xAA, 0xAA] = true := by decide +kernel

/-- E19: the text alone would fit, the terminator does not. -/
theorem test_encode_short_capacity :
    endsWith (step (enc [0x4D, 0x61, 0x6E] 4#32)) 3 0xFFFFFFFD [0xAA, 0xAA] = true := by decide +kernel

/-- DV16: "AAAA!AAA" stops at the invalid group, with its three bytes. -/
theorem test_decode_stops_at_invalid :
    endsWith (step (dec [0x41, 0x41, 0x41, 0x41, 0x21, 0x41, 0x41, 0x41] 8#32 6#32)) 0 3 [0x00, 0x00, 0x00, 0xAA] = true := by
  decide +kernel

/-- DV40: "AAAAAB=A" has no trailing padding, so five bytes of capacity are too few. -/
theorem test_decode_short_capacity :
    endsWith (step (dec [0x41, 0x41, 0x41, 0x41, 0x41, 0x42, 0x3D, 0x41] 8#32 5#32)) 3 0xFFFFFFFD [0xAA] = true := by
  decide +kernel

/-! ### The other outcomes -/

/-- A Reserved word, 0x303 (section 2.6). -/
theorem test_reserved_word_ecmd :
    endsWith (step (issued 0x303#32 0x1000#32 4#32 0x1010#32 8#32 [])) 4 0xFFFFFFFC [0xAA] = true := by decide +kernel

/-- X4 and X5: a source without storage faults, unless the capacity check comes first. -/
theorem test_unbacked_source :
    faultOf (step (issued 0x301#32 0x0FFF#32 3#32 0x1010#32 5#32 [])) = some (.emem 0x0FFF) ∧
    endsWith (step (issued 0x301#32 0x0FFF#32 3#32 0x1010#32 4#32 [])) 3 0xFFFFFFFD [0xAA] = true := by decide +kernel

/-- X6: a text of four characters at the end of the storage, with no TERM and SRC_LEN = 8. -/
theorem test_scan_leaves_storage :
    faultOf (step { issued 0x302#32 0x103C#32 8#32 0x1010#32 8#32 [] with
      mem := Memory.store [] 0x103C [0x41, 0x41, 0x41, 0x41] }) = some (.emem 0x1040) := by decide +kernel

/-- X7 and X8: ENCODE 0x1000 to 0x1002 is refused; DECODE "TWFu\0" from 0x1000 to 0x1005 is not. -/
theorem test_overlap :
    refusalOf (step (issued 0x301#32 0x1000#32 3#32 0x1002#32 5#32 [])) = some .overlap ∧
    nextHas (step (issued 0x302#32 0x1000#32 5#32 0x1005#32 3#32 [0x54, 0x57, 0x46, 0x75, 0x00]))
      (fun t => t.mem.bytesAt 0x1005 3 == [0x4D, 0x61, 0x6E]) = true := by decide +kernel

/-! ### Registers and reset -/

/-- I2: AW = 16 keeps the low 16 bits of an address. -/
theorem test_address_register_width :
    nextHas (step (idle [] [Event.wr small .srcAddr 0x12345678#32])) (fun t => t.srcAddr == 0x00005678#32) = true := by
  decide +kernel

/-- I6, I7, I8: STATUS 0x36 written with 2, 4 and 0xFFFFFFF9. -/
theorem test_status_write :
    let s : State := { idle [] [] with done := true, ovr := true, err := 3#4 }
    statusWord s = 0x36#32 ∧ statusWord (writeReg .status 0x2#32 s) = 0x34#32 ∧
    statusWord (writeReg .status 0x4#32 s) = 0x32#32 ∧ statusWord (writeReg .status 0xFFFFFFF9#32 s) = 0x36#32 := by
  decide +kernel

/-- I10 and I11: writes of SRC_LEN and CMD while busy are dropped and set OVR. -/
theorem test_write_while_busy :
    nextHas (step { enc [0x4D] 5#32 with inputs := [Event.wr small .srcLen 7#32] })
      (fun t => t.srcLen == 1#32 && t.ovr && t.busy) = true ∧
    nextHas (step { enc [0x4D] 5#32 with inputs := [Event.wr small .cmd 0x302#32] })
      (fun t => t.cmd == 0x301#32 && t.ovr && t.busy) = true := by decide +kernel

/-- I14: a 16-bit access at 0x04 and a 32-bit access at 0x06. -/
theorem test_register_access_refused :
    refusalOf (step (idle [] [.regRead 0x44 .w16])) = some .registerAccess ∧
    refusalOf (step (idle [] [.regWrite 0x46 .w32 0#32])) = some .registerAccess := by decide +kernel

/-- 70_reset_and_hazards.md R245: the host may not read a byte of the text until it has seen DONE = 1. -/
theorem test_buffer_closed_then_open :
    refusalOf (step { enc [0x4D] 5#32 with inputs := [.bufRead 0x1014 1] }) = some (.bufferInUse 0x1014) ∧
    nextHas (Sys2Proof.core.run 3 { enc [0x4D] 5#32 with inputs := [.engine, Event.rd small .status, .bufRead 0x1014 1] })
      (fun t => t.bufData == [0x00] && t.rdData == some 0x2#32) = true := by decide +kernel

/-- R67's ranges: the destination of an ENCODE that will fail ECAP is closed to the host too, TERM's byte included, and not
one byte more. -/
theorem test_destination_closed_on_short_capacity :
    refusalOf (step { enc [0x4D] 4#32 with inputs := [.bufWrite 0x1014 [0x07]] }) = some (.bufferInUse 0x1014) ∧
    nextHas (step { enc [0x4D] 4#32 with inputs := [.bufWrite 0x1015 [0x07]] })
      (fun t => t.mem.byteAt 0x1015 == 0x07) = true := by
  decide +kernel

/-- 20_memory.md R61 (a), R62: "M" written without a publish is not what the engine encodes ("qg==", the filler 0xAA); after a
publish it is ("TQ=="). -/
theorem test_publish_before_command :
    let run (es : List Event) := Sys2Proof.core.run (es.length + 1)
      { State.resetOn fenced with srcAddr := 0x1000#32, srcLen := 1#32, dstAddr := 0x1010#32, dstCap := 5#32, inputs := es }
    nextHas (run [.bufWrite 0x1000 [0x4D], Event.wr fenced .cmd 0x301#32])
      (fun t => t.mem.bytesAt 0x1010 5 == [0x71, 0x67, 0x3D, 0x3D, 0x00]) = true ∧
    nextHas (run [.bufWrite 0x1000 [0x4D], .publish, Event.wr fenced .cmd 0x301#32])
      (fun t => t.mem.bytesAt 0x1010 5 == [0x54, 0x51, 0x3D, 0x3D, 0x00]) = true := by decide +kernel

/-- X9: reset with an ENCODE in flight: the registers are 0 and nothing is in flight. -/
theorem test_reset_in_flight :
    nextHas (step { enc [0x4D] 5#32 with inputs := [.reset] })
      (fun t => t.cmd == 0#32 && statusWord t == 0#32 && t.dstAddr == 0#32 && !t.busy) = true := by decide +kernel

/-- The word withFetchWord places runs as the next step, the first after reset: ENCODE with DST_CAP = 0 is ECAP. -/
theorem test_fetch_word_from_reset :
    nextHas (step (State.reset.withFetchWord 32 0x301)) (fun t => statusWord t == 0x32#32) = true ∧
    nextHas (step (State.reset.withFetchWord 32 0x302)) (fun t => statusWord t == 0x02#32) = true := by decide +kernel

/-! ### Witnesses: concrete states and operands that meet the hypotheses of each statement, at the edges of its ranges -/

theorem witness_DecodingIsTotalByFields :
    (0x400#32 : Word).toNat / 1024 ≠ 0 ∧ (0x010#32 : Word).toNat / 16 % 16 ≠ 0 ∧
    ((0x301#32 : Word).toNat / 1024 = 0 ∧ (0x301#32 : Word).toNat / 16 % 16 = 0 ∧ (0x301#32 : Word).toNat % 16 = 1) ∧
    ((0x002#32 : Word).toNat / 1024 = 0 ∧ (0x002#32 : Word).toNat / 16 % 16 = 0 ∧ (0x002#32 : Word).toNat % 16 = 2) ∧
    ((0x303#32 : Word).toNat / 1024 = 0 ∧ (0x303#32 : Word).toNat / 16 % 16 = 0 ∧
      (0x303#32 : Word).toNat % 16 ≠ 1 ∧ (0x303#32 : Word).toNat % 16 ≠ 2) := by decide +kernel

theorem witness_CommandWordRoundTrip :
    (Instr.encode true false).wf = true ∧ decodeCmd 0x302#32 = .ok (.decode true true) := by decide

theorem witness_StepRunsDecodedCommand :
    (enc [0x4D] 5#32).busy = true ∧ decodeCmd (enc [0x4D] 5#32).cmd = .ok (.encode true true) ∧
    (enc [0x4D] 5#32).inputs = [] ∧ { enc [0x4D] 5#32 with inputs := [.engine, .reset] }.inputs = .engine :: [.reset] ∧
    decodeTableWord 32 0x302 = some (.decode true true) := by decide +kernel

/-- One command word for each reason, with no event left and with the engine event next. -/
theorem witness_ReservedWordCompletesWithEcmd :
    ∀ n ∈ [0x701, 0x381, 0x303],
      let s := issued (BitVec.ofNat 32 n) 0#32 0#32 0#32 0#32 []
      s.busy = true ∧ s.inputs = [] ∧ { s with inputs := [.engine, .reset] }.inputs = .engine :: [.reset] ∧
        (s.cmd.toNat / 1024 ≠ 0 ∨ s.cmd.toNat / 16 % 16 ≠ 0 ∨ (s.cmd.toNat % 16 ≠ 1 ∧ s.cmd.toNat % 16 ≠ 2)) := by
  decide +kernel

theorem witness_DecodeRomInvertsAlphabet :
    dlut 0x2F#8 = some 63#6 ∧ (∀ s : Slice, alpha s ≠ 0x40#8) := by decide +kernel

theorem witness_SpecialBytesAreInvalid :
    (0x3D#8 : Byte) ∈ ([0x3D, 0x00, 0x09, 0x0A, 0x0D, 0x20, 0x2D, 0x5F] : List Byte) ∧ 0x80 ≤ (0x80#8 : Byte).toNat := by
  decide

theorem witness_EncodedTextCharacters :
    (0x3D#8 : Byte) ∈ encodeBytes [0xFF] ∧ 1 + 2 < (encodeBytes [0xFF]).length := by decide +kernel

/-- n = 1 with the exact capacity, and n = 0 with capacity 1. -/
theorem witness_EncodeCompletes :
    (4 * (((enc [0x4D] 5#32).srcLen.toNat + 2) / 3) + 1 ≤ (enc [0x4D] 5#32).dstCap.toNat ∧
      validRange small 0x1000 1 ∧ validRange small 0x1010 5 ∧ apart 0x1000 1 0x1010 5) ∧
    (4 * (((enc [] 1#32).srcLen.toNat + 2) / 3) + 1 ≤ (enc [] 1#32).dstCap.toNat ∧
      validRange small 0x1000 0 ∧ validRange small 0x1010 1 ∧ apart 0x1000 0 0x1010 1) :=
  ⟨⟨by decide +kernel, validRange_of (by decide +kernel), validRange_of (by decide +kernel), apart_of (by decide +kernel)⟩,
    ⟨by decide +kernel, validRange_of (by decide +kernel), validRange_of (by decide +kernel), apart_of (by decide +kernel)⟩⟩

theorem witness_EncodeShortCapacity :
    (enc [0x4D] 4#32).dstCap.toNat < 4 * (((enc [0x4D] 4#32).srcLen.toNat + 2) / 3) + 1 ∧
    ∃ t, exec (.encode true true) (enc [0x4D] 5#32) = .next t ∧ (t.err == 0#4) = true :=
  ⟨by decide +kernel, next_of_nextHas (by decide +kernel)⟩

theorem witness_EncodeEmptyInput :
    (enc [] 1#32).srcLen = 0#32 ∧ 1 ≤ (enc [] 1#32).dstCap.toNat ∧ small.valid (enc [] 1#32).dstAddr.toNat = true ∧
    (enc [] 0#32).srcLen = 0#32 ∧ (enc [] 0#32).dstCap = 0#32 := by decide +kernel

theorem witness_EncodeOutcomeIgnoresByteValues :
    (∃ t, exec (.encode true true) (enc [0x4D] 5#32) = .next t ∧ true = true) ∧
    exec (.encode true true) (issued 0x301#32 0x0FFF#32 3#32 0x1010#32 5#32 []) = .fault (.emem 0x0FFF) ∧
    exec (.encode true true) (issued 0x301#32 0x1000#32 3#32 0x1002#32 5#32 []) = .refused .overlap :=
  ⟨next_of_nextHas (p := fun _ => true) (by decide +kernel), fault_of_faultOf (by decide +kernel),
    refused_of_refusalOf (by decide +kernel)⟩

/-- "AAAA", "ABC=", "AB=C", "AB==", and an invalid character at each position. -/
theorem witness_DecoderGroupRule :
    dlut 0x41#8 = some 0#6 ∧ dlut 0x42#8 = some 1#6 ∧ dlut 0x43#8 = some 2#6 ∧ dlut 0x43#8 ≠ none ∧
    dlut 0x21#8 = none ∧ (0x21#8 : Byte) ≠ 0x3D#8 ∧ dlut 0x3D#8 = none := by decide

theorem witness_InvalidGroupStopsDecoding :
    ([0x00, 0x00, 0x00] : List Byte).length % 3 = 0 ∧ (decGroup 0x41 0x41 0x41 0x21).ok = false ∧
    (decGroup 0x3D 0x41 0x41 0x41).ok = false := by decide

theorem witness_PaddedGroupStopsDecoding :
    ([] : List Byte).length % 3 = 0 ∧ (decGroup 0x41 0x42 0x3D 0x43).ok = true ∧ (decGroup 0x41 0x42 0x43 0x3D).ok = true := by
  decide

/-- 'w' and 'x' (48 and 49), '8' and '9' (60 and 61). -/
theorem witness_PaddingBitsAreNotChecked :
    dlut 0x77#8 = some 48#6 ∧ dlut 0x78#8 = some 49#6 ∧ (48#6 : Slice).toNat / 16 = (49#6 : Slice).toNat / 16 ∧
    dlut 0x38#8 = some 60#6 ∧ dlut 0x39#8 = some 61#6 ∧ (60#6 : Slice).toNat / 4 = (61#6 : Slice).toNat / 4 := by decide

theorem witness_TrailingPaddingCount : (0x41#8 : Byte) ≠ 0x3D#8 ∧ (0x3D#8 : Byte) = 0x3D#8 := by decide

/-- "/w==" with capacity 1: the expected length exactly. -/
theorem witness_DecodeCompletes :
    effectiveLength (dec [0x2F, 0x77, 0x3D, 0x3D] 4#32 1#32).mem 0x1000 4 = 4 ∧
    (dec [0x2F, 0x77, 0x3D, 0x3D] 4#32 1#32).mem.bytesAt 0x1000 (4 * (4 / 4)) = [0x2F, 0x77, 0x3D, 0x3D] ∧
    4 / 4 * 3 - trailingPad [0x2F, 0x77, 0x3D, 0x3D] ≤ (dec [0x2F, 0x77, 0x3D, 0x3D] 4#32 1#32).dstCap.toNat ∧
    validRange small 0x1000 (min 4 (4 + 1)) ∧
    validRange small 0x1010 (decodeGroups [0x2F, 0x77, 0x3D, 0x3D]).length ∧
    apart 0x1000 (min 4 (4 + 1)) 0x1010 (4 / 4 * 3 - trailingPad [0x2F, 0x77, 0x3D, 0x3D]) :=
  ⟨by decide +kernel, by decide +kernel, by decide +kernel, validRange_of (by decide +kernel),
    validRange_of (by decide +kernel), apart_of (by decide +kernel)⟩

/-- SRC_LEN = 0, and a TERM at the first place. -/
theorem witness_DecodeEmptyText :
    effectiveLength (dec [] 0#32 0#32).mem 0x1000 0 = 0 ∧ effectiveLength (dec [0x00, 0x41] 5#32 3#32).mem 0x1000 5 = 0 ∧
    validRange small 0x1000 (min 5 1) :=
  ⟨by decide +kernel, by decide +kernel, validRange_of (by decide +kernel)⟩

/-- Lengths 1 and 3, and a run that ends with ELEN. -/
theorem witness_DecodeUnusableLength :
    effectiveLength (dec [0x41] 1#32 3#32).mem 0x1000 1 = 1 ∧ validRange small 0x1000 (min 1 2) ∧
    effectiveLength (dec [0x41, 0x42, 0x43, 0x00] 4#32 3#32).mem 0x1000 4 = 3 ∧ validRange small 0x1000 (min 4 4) ∧
    ∃ t, exec (.decode true true) (dec [0x41] 1#32 3#32) = .next t ∧ (t.err == 2#4) = true :=
  ⟨by decide +kernel, validRange_of (by decide +kernel), by decide +kernel, validRange_of (by decide +kernel),
    next_of_nextHas (by decide +kernel)⟩

theorem witness_DecodeShortCapacity :
    effectiveLength (dec [0x41, 0x42, 0x43, 0x3D] 4#32 1#32).mem 0x1000 4 = 4 ∧ validRange small 0x1000 (min 4 5) ∧
    (dec [0x41, 0x42, 0x43, 0x3D] 4#32 1#32).dstCap.toNat <
      4 / 4 * 3 - trailingPad ((dec [0x41, 0x42, 0x43, 0x3D] 4#32 1#32).mem.bytesAt 0x1000 (4 * (4 / 4))) :=
  ⟨by decide +kernel, validRange_of (by decide +kernel), by decide +kernel⟩

theorem witness_DecodeNeverOverruns :
    4 ≤ ([0x41, 0x42, 0x3D, 0x43] : List Byte).length ∧ ([0x41, 0x42, 0x3D, 0x43] : List Byte).length % 4 = 0 ∧
    ∃ t, exec (.decode true true) (dec [0x41, 0x42, 0x3D, 0x43] 4#32 3#32) = .next t ∧ (t.err == 0#4) = true :=
  ⟨by decide, by decide, next_of_nextHas (by decide +kernel)⟩

/-- "AAAAB" (k = 1, r = 1), and "AB". -/
theorem witness_DecodeTruncates :
    effectiveLength (dec [0x41, 0x41, 0x41, 0x41, 0x42] 5#32 3#32).mem 0x1000 5 = 4 * 1 + 1 ∧
    (∃ t, exec (.decode true true) (dec [0x41, 0x41, 0x41, 0x41, 0x42] 5#32 3#32) = .next t ∧ (t.err == 0#4) = true) ∧
    effectiveLength (dec [0x41, 0x42] 2#32 3#32).mem 0x1000 2 = 2 ∧
    ∃ t, exec (.decode true true) (dec [0x41, 0x42] 2#32 3#32) = .next t ∧ (t.err == 2#4) = true :=
  ⟨by decide +kernel, next_of_nextHas (by decide +kernel), by decide +kernel, next_of_nextHas (by decide +kernel)⟩

/-- ENCODE of 0x4D to 0x1010, then DECODE from there to 0x1020. -/
theorem witness_RoundTripThroughMemory :
    ∃ t u : State, exec (.encode true true) (enc [0x4D] 5#32) = .next t ∧ t.err = 0#4 ∧ u.plat = (enc [0x4D] 5#32).plat ∧
      u.srcAddr = (enc [0x4D] 5#32).dstAddr ∧ (∀ x, u.mem.byteAt x = t.mem.byteAt x) ∧
      4 * (((enc [0x4D] 5#32).srcLen.toNat + 2) / 3) ≤ u.srcLen.toNat ∧
      (enc [0x4D] 5#32).srcLen.toNat ≤ u.dstCap.toNat ∧
      apart (enc [0x4D] 5#32).dstAddr.toNat (4 * (((enc [0x4D] 5#32).srcLen.toNat + 2) / 3) + 1) u.dstAddr.toNat
        (enc [0x4D] 5#32).srcLen.toNat ∧
      validRange u.plat u.dstAddr.toNat (enc [0x4D] 5#32).srcLen.toNat := by
  obtain ⟨t, h, hp⟩ := next_of_nextHas (o := exec (.encode true true) (enc [0x4D] 5#32))
    (p := fun t => t.err == 0#4) (by decide +kernel)
  exact ⟨t, { enc [0x4D] 5#32 with mem := t.mem, srcAddr := 0x1010#32, srcLen := 4#32, dstAddr := 0x1020#32, dstCap := 1#32 },
    h, by simpa using hp, rfl, (by decide +kernel : (0x1010#32 : Word) = (enc [0x4D] 5#32).dstAddr), fun _ => rfl,
    (by decide +kernel : 4 * (((enc [0x4D] 5#32).srcLen.toNat + 2) / 3) ≤ (4#32 : Word).toNat),
    (by decide +kernel : (enc [0x4D] 5#32).srcLen.toNat ≤ (1#32 : Word).toNat),
    apart_of (b := (0x1020#32 : Word).toNat) (by decide +kernel),
    validRange_of (p := (enc [0x4D] 5#32).plat) (a := (0x1020#32 : Word).toNat) (by decide +kernel)⟩

theorem witness_AbsentReferenceFailsWithEarg :
    (Instr.encode false true).sp = false ∧ (Instr.decode true false).dp = false ∧
    ∃ t, exec (.decode true false) (dec [] 0#32 0#32) = .next t ∧ (t.err == 1#4) = true :=
  ⟨by decide, by decide, next_of_nextHas (by decide +kernel)⟩

theorem witness_CommandsWriteNothingElse :
    (∃ t, exec (.encode true true) (enc [0x4D] 4#32) = .next t ∧ (t.err != 0#4) = true) ∧
    (∃ t, exec (.encode true true) (enc [0x4D] 5#32) = .next t ∧ (t.err == 0#4) = true) ∧
    ∃ t, exec (.decode true true) (dec [0x41, 0x41, 0x41, 0x41] 4#32 3#32) = .next t ∧ (t.err == 0#4) = true :=
  ⟨next_of_nextHas (by decide +kernel), next_of_nextHas (by decide +kernel), next_of_nextHas (by decide +kernel)⟩

/-- A DECODE that completes, one that faults, one that is refused; the other memory holds the text and one byte more. -/
theorem witness_CommandsReadOnlyTheirReadSet :
    decodeCmd (dec [0x41, 0x41, 0x41, 0x41] 4#32 3#32).cmd = .ok (.decode true true) ∧
    (∀ x, (footprint (dec [0x41, 0x41, 0x41, 0x41] 4#32 3#32)).reads x = true →
      (Memory.store [] 0x1000 [0x41, 0x41, 0x41, 0x41, 0x07]).byteAt x =
        (dec [0x41, 0x41, 0x41, 0x41] 4#32 3#32).mem.byteAt x) ∧
    (∃ t, exec (.decode true true) (dec [0x41, 0x41, 0x41, 0x41] 4#32 3#32) = .next t ∧ (t.err == 0#4) = true) ∧
    exec (.decode true true) (dec [] 65#32 3#32) = .fault (.emem 0x1040) ∧
    exec (.decode true true) (issued 0x302#32 0x1000#32 4#32 0x1003#32 3#32 [0x41, 0x41, 0x41, 0x41]) = .refused .overlap := by
  refine ⟨by decide +kernel, ?_, next_of_nextHas (by decide +kernel), fault_of_faultOf (by decide +kernel),
    refused_of_refusalOf (by decide +kernel)⟩
  have h : ∀ i, i < 4 → (Memory.store [] 0x1000 [0x41, 0x41, 0x41, 0x41, 0x07]).byteAt (0x1000 + i) =
      (dec [0x41, 0x41, 0x41, 0x41] 4#32 3#32).mem.byteAt (0x1000 + i) := by decide +kernel
  have hf : footprint (dec [0x41, 0x41, 0x41, 0x41] 4#32 3#32) =
      { readBase := 0x1000, readLen := 4, writeBase := 0x1010, writeLen := 3 } := by decide +kernel
  intro x hx
  rw [hf] at hx
  simp only [Footprint.reads, Bool.and_eq_true, decide_eq_true_eq] at hx
  have := h (x - 0x1000) (by omega)
  rwa [show 0x1000 + (x - 0x1000) = x by omega] at this

/-- An ENCODE that completes; the other memory holds one byte more, past its read set. -/
theorem witness_CommandsReadOnlyTheirReadSet_encode :
    decodeCmd (enc [0x4D] 5#32).cmd = .ok (.encode true true) ∧
    (∀ x, (footprint (enc [0x4D] 5#32)).reads x = true →
      (Memory.store [] 0x1000 [0x4D, 0x07]).byteAt x = (enc [0x4D] 5#32).mem.byteAt x) ∧
    ∃ t, exec (.encode true true) (enc [0x4D] 5#32) = .next t ∧ (t.err == 0#4) = true := by
  refine ⟨by decide +kernel, fun x hx => ?_, next_of_nextHas (by decide +kernel)⟩
  have hf : footprint (enc [0x4D] 5#32) = { readBase := 0x1000, readLen := 1, writeBase := 0x1010, writeLen := 5 } := by
    decide +kernel
  rw [hf] at hx
  simp only [Footprint.reads, Bool.and_eq_true, decide_eq_true_eq] at hx
  obtain rfl : x = 0x1000 := by omega
  decide +kernel

/-- Two states that differ in what earlier commands left. -/
theorem witness_EarlierCommandsLeaveNoTrace :
    { enc [0x4D] 5#32 with err := 3#4, result := 0xFFFFFFFD#32, done := true }.mem = (enc [0x4D] 5#32).mem ∧
    ∃ t, exec (.encode true true) (enc [0x4D] 5#32) = .next t ∧ (t.err == 0#4) = true :=
  ⟨by decide +kernel, next_of_nextHas (by decide +kernel)⟩

/-- Sets that share their last and first byte, and sets that only touch. -/
theorem witness_OverlapIsRefused :
    exec (.encode true true) (issued 0x301#32 0x1000#32 3#32 0x1002#32 5#32 []) = .refused .overlap ∧
    (∃ t, exec (.encode true true) (issued 0x301#32 0x1000#32 3#32 0x1003#32 5#32 []) = .next t ∧ (t.err == 0#4) = true) ∧
    exec (.decode true true) (issued 0x302#32 0x1000#32 4#32 0x1003#32 3#32 [0x41, 0x41, 0x41, 0x41]) = .refused .overlap ∧
    ∃ t, exec (.decode true true) (issued 0x302#32 0x1000#32 4#32 0x1004#32 3#32 [0x41, 0x41, 0x41, 0x41]) = .next t ∧
      (t.err == 0#4) = true :=
  ⟨refused_of_refusalOf (by decide +kernel), next_of_nextHas (by decide +kernel), refused_of_refusalOf (by decide +kernel),
    next_of_nextHas (by decide +kernel)⟩

/-- The last byte of the destination has no storage; the scan runs off the storage. -/
theorem witness_InvalidAddressFaults :
    4 * (((issued 0x301#32 0x1000#32 3#32 0x103C#32 5#32 []).srcLen.toNat + 2) / 3) + 1 ≤
      (issued 0x301#32 0x1000#32 3#32 0x103C#32 5#32 []).dstCap.toNat ∧
    apart 0x1000 3 0x103C 5 ∧ ¬(validRange small 0x1000 3 ∧ validRange small 0x103C 5) ∧
    ¬validRange small 0x1000 (min 65 (effectiveLength (dec [] 65#32 3#32).mem 0x1000 65 + 1)) ∧
    exec (.decode true true) (dec [] 65#32 3#32) = .fault (.emem 0x1040) := by
  refine ⟨by decide +kernel, apart_of (by decide +kernel), fun h => ?_, fun h => ?_, fault_of_faultOf (by decide +kernel)⟩
  · exact absurd (h.2 4 (by decide)) (by decide +kernel)
  · exact absurd (h 64 (by decide +kernel)) (by decide +kernel)

/-- Its clause on the bytes DECODE writes: "AAAA" to 0x103E, the third byte without storage. -/
theorem witness_InvalidAddressFaults_written :
    effectiveLength (Memory.store [] 0x1000 [0x41, 0x41, 0x41, 0x41]) 0x1000 4 = 4 ∧
    4 / 4 * 3 - trailingPad [0x41, 0x41, 0x41, 0x41] ≤ 3 ∧
    validRange small 0x1000 (min 4 (4 + 1)) ∧ apart 0x1000 (min 4 (4 + 1)) 0x103E 3 ∧
    ¬validRange small 0x103E (decodeGroups [0x41, 0x41, 0x41, 0x41]).length ∧
    exec (.decode true true) (issued 0x302#32 0x1000#32 4#32 0x103E#32 3#32 [0x41, 0x41, 0x41, 0x41]) =
      .fault (.emem 0x1040) := by
  refine ⟨by decide +kernel, by decide +kernel, validRange_of (by decide +kernel), apart_of (by decide +kernel), fun h => ?_,
    fault_of_faultOf (by decide +kernel)⟩
  exact absurd (h 2 (by decide +kernel)) (by decide +kernel)

theorem witness_CompletionReportsCode : State.reset.ovr = false := rfl

/-- Every offset, the registers all being 0. -/
theorem witness_RegisterReadAnswers :
    ∀ off ∈ [0x00, 0x04, 0x08, 0x0C, 0x10, 0x14, 0x18, 0x1C],
      let s := idle [] [.regRead (0x40 + off) .w32]
      (off, 0) ∈ [(0x00, s.cmd.toNat), (0x04, s.busy.toNat + 2 * s.done.toNat + 4 * s.ovr.toNat + 16 * s.err.toNat),
        (0x08, s.srcAddr.toNat), (0x0C, s.srcLen.toNat), (0x10, s.dstAddr.toNat), (0x14, s.dstCap.toNat),
        (0x18, s.result.toNat), (0x1C, 0)] ∧
      s.inputs = .regRead (s.plat.regBase + off) .w32 :: [] := by decide +kernel

/-- For RegisterWriteWhileIdle, CommandWriteIssues, RegisterWriteWhileBusy and StatusWriteClears: every offset, idle and
busy. -/
theorem witness_RegisterWrites :
    (∀ off ∈ [0x00, 0x04, 0x08, 0x0C, 0x10, 0x14, 0x18, 0x1C],
      (idle [] [.regWrite (0x40 + off) .w32 0x301#32]).busy = false ∧
      (idle [] [.regWrite (0x40 + off) .w32 0x301#32]).inputs = .regWrite (small.regBase + off) .w32 0x301#32 :: []) ∧
    (∀ off ∈ [0x00, 0x04, 0x08, 0x0C, 0x10, 0x14, 0x18, 0x1C],
      { enc [0x4D] 5#32 with inputs := [.regWrite (0x40 + off) .w32 7#32] }.busy = true ∧
      { enc [0x4D] 5#32 with inputs := [.regWrite (0x40 + off) .w32 7#32] }.inputs =
        .regWrite (small.regBase + off) .w32 7#32 :: []) := by decide +kernel

theorem witness_OtherRegisterAccesses :
    (0x1C < 0x20 ∧ (BusWidth.w16 ≠ .w32 ∨ 0x1C % 4 ≠ 0)) ∧ (0x1F < 0x20 ∧ (BusWidth.w32 ≠ .w32 ∨ 0x1F % 4 ≠ 0)) ∧
    0x20 ≤ 0x20 ∧ (idle [] [.regRead 0x60 .w8]).inputs = .regRead (small.regBase + 0x20) .w8 :: [] := by decide +kernel

/-- For BusyMovesOnlyByIssueAndCompletion and DoneMovesOnlyByItsRules: a step that issues, and one that completes. -/
theorem witness_BusyAndDoneMove :
    (∃ t, step { idle [] [Event.wr small .cmd 0x301#32] with done := true } = .next t ∧ (t.busy && !t.done) = true) ∧
    (∃ t, step (enc [0x4D] 5#32) = .next t ∧ (!t.busy && t.done) = true) ∧
    (enc [0x4D] 5#32).busy = true ∧ (enc [0x4D] 5#32).done = false ∧ (idle [] []).busy = false :=
  ⟨next_of_nextHas (by decide +kernel), next_of_nextHas (by decide +kernel), by decide +kernel, by decide +kernel, rfl⟩

/-- A step that sets OVR, and one that clears it. -/
theorem witness_OverrunIsSticky :
    (∃ t, step { enc [0x4D] 5#32 with inputs := [Event.wr small .dstCap 0#32] } = .next t ∧ t.ovr = true) ∧
    (enc [0x4D] 5#32).ovr = false ∧
    ∃ t, step { idle [] [Event.wr small .status 4#32] with ovr := true } = .next t ∧ (!t.ovr) = true :=
  ⟨next_of_nextHas (by decide +kernel), by decide +kernel, next_of_nextHas (by decide +kernel)⟩

theorem witness_ErrAndResultChangeOnlyAtCompletion :
    ∃ t, step (enc [0x4D] 4#32) = .next t ∧ (t.err != (enc [0x4D] 4#32).err) = true :=
  next_of_nextHas (by decide +kernel)

/-- Any next step with a command in flight. -/
theorem witness_ArgumentsAreFrozenInFlight :
    (enc [0x4D] 5#32).busy = true ∧
    ∃ t, step { enc [0x4D] 5#32 with inputs := [Event.wr small .srcLen 7#32] } = .next t ∧ t.busy = true :=
  ⟨by decide +kernel, next_of_nextHas (by decide +kernel)⟩

theorem witness_CommandInFlightIsPerformed :
    ∃ t, Sys2Proof.core.run (0 + 1) (enc [0x4D] 5#32) = .next t ∧ (!t.busy) = true :=
  next_of_nextHas (by decide +kernel)

theorem witness_ReadSetOfACommand :
    decodeCmd (enc [0x4D] 5#32).cmd = .ok (.encode true true) ∧
    4 * (((enc [0x4D] 5#32).srcLen.toNat + 2) / 3) + 1 ≤ (enc [0x4D] 5#32).dstCap.toNat ∧
    (enc [0x4D] 4#32).dstCap.toNat < 4 * (((enc [0x4D] 4#32).srcLen.toNat + 2) / 3) + 1 ∧
    decodeCmd (dec [] 0#32 0#32).cmd = .ok (.decode true true) ∧
    decodeCmd (issued 0x202#32 0#32 0#32 0#32 0#32 []).cmd = .ok (.decode false true) := by decide +kernel

/-- ENCODE that fails ECAP, one without its source, DECODE of "AAAA" with too little capacity, and the commands without a
write set. -/
theorem witness_WriteSetOfACommand :
    decodeCmd (enc [0x4D] 4#32).cmd = .ok (.encode true true) ∧
    decodeCmd (issued 0x201#32 0#32 0#32 0#32 0#32 []).cmd = .ok (.encode false true) ∧
    decodeCmd (issued 0x101#32 0#32 0#32 0#32 0#32 []).cmd = .ok (.encode true false) ∧
    (4 = effectiveLength (dec [0x41, 0x41, 0x41, 0x41] 4#32 2#32).mem 0x1000 4 ∧
      [0x41, 0x41, 0x41, 0x41] = (dec [0x41, 0x41, 0x41, 0x41] 4#32 2#32).mem.bytesAt 0x1000 (4 * (4 / 4)) ∧
      decodeCmd (dec [0x41, 0x41, 0x41, 0x41] 4#32 2#32).cmd = .ok (.decode true true)) ∧
    decodeCmd (issued 0x202#32 0#32 0#32 0#32 0#32 []).cmd = .ok (.decode false true) ∧
    decodeCmd (issued 0x303#32 0#32 0#32 0#32 0#32 []).cmd = .error .reservedOp := by decide +kernel

/-- The first byte of the read set, and the last byte of the write set within a longer access. -/
theorem witness_BuffersInUseAreRefused :
    footprint (enc [0x4D] 5#32) ∈ (enc [0x4D] 5#32).windows ∧
    (footprint (enc [0x4D] 5#32)).readBase = 0x1000 ∧ (footprint (enc [0x4D] 5#32)).readLen = 1 ∧
    (footprint (enc [0x4D] 5#32)).writeBase = 0x1010 ∧ (footprint (enc [0x4D] 5#32)).writeLen = 5 ∧
    validRange small 0x1000 1 ∧ validRange small 0x1012 4 :=
  ⟨by decide +kernel, by decide +kernel, by decide +kernel, by decide +kernel, by decide +kernel,
    validRange_of (by decide +kernel), validRange_of (by decide +kernel)⟩

theorem inv_enc : (enc [0x4D] 5#32).Inv where
  platWf := by decide
  memWf := by decide +kernel
  memBacked := by decide +kernel
  unseenSorted := rfl
  unseenBacked := by decide +kernel
  unseenOnlyOnFence := by decide +kernel
  hostMemWf := by decide +kernel
  hostMemOnlyOnFence := by decide +kernel
  srcFits := by decide +kernel
  dstFits := by decide +kernel
  notBoth := by decide +kernel
  errKnown := by decide +kernel
  resultOfErr := by decide +kernel
  inFlightGuarded := by decide +kernel

/-- A machine on `fenced` with a host write at 0x1000 that the engine does not see yet, and one of the engine's at 0x1010
that the host does not see yet. -/
def pending (inputs : List Event) : State :=
  { State.resetOn fenced with mem := [(0x1010, 0x4D)], unseen := [(0x1000, 0x07)], inputs := inputs }

theorem inv_pending : (pending []).Inv where
  platWf := by decide
  memWf := by decide
  memBacked := by decide
  unseenSorted := by decide
  unseenBacked := by decide
  unseenOnlyOnFence := fun h => by cases h
  hostMemWf := by decide
  hostMemOnlyOnFence := fun _ => rfl
  srcFits := by decide
  dstFits := by decide
  notBoth := by decide
  errKnown := by decide
  resultOfErr := by decide
  inFlightGuarded := fun h => by cases h

/-- The bytes next to both sets; a platform of each ordering. -/
theorem witness_HostBufferAccesses :
    (∀ a ∈ [0x1001, 0x100F, 0x1015], ∀ i, i < 1 →
      small.valid (a + i) = true ∧ (enc [0x4D] 5#32).inUse (a + i) = false) ∧
    (enc [0x4D] 5#32).Inv ∧ (pending []).Inv ∧
    (enc [0x4D] 5#32).plat.ordering = { toEngine := .atOnce, toHost := .atOnce } ∧
    (pending []).plat.ordering.toEngine = .onFence :=
  ⟨by decide +kernel, inv_enc, inv_pending, rfl, rfl⟩

theorem witness_HostAccessCommutesWithEngineStep :
    (enc [0x4D] 5#32).Inv ∧ (enc [0x4D] 5#32).busy = true ∧
    ∃ s1, runEvent (.bufWrite 0x1020 [0x07]) (enc [0x4D] 5#32) = .next s1 ∧ ∃ s2, perform s1 = .next s2 := by
  refine ⟨inv_enc, by decide +kernel, ?_⟩
  obtain ⟨s1, h1, hp⟩ := next_of_nextHas (o := runEvent (.bufWrite 0x1020 [0x07]) (enc [0x4D] 5#32))
    (p := fun s1 => nextHas (perform s1) fun _ => true) (by decide +kernel)
  obtain ⟨s2, h2, _⟩ := next_of_nextHas hp
  exact ⟨s1, h1, s2, h2⟩

/-- Its case of a publish: one byte, with an ENCODE of an empty buffer to 0x1020 in flight. -/
theorem witness_HostAccessCommutesWithEngineStep_publish :
    let s := issue 0x301#32 { pending [] with dstAddr := 0x1020#32, dstCap := 1#32 }
    s.Inv ∧ s.busy = true ∧ s.unseen ≠ [] ∧ ∃ s1, runEvent .publish s = .next s1 ∧ ∃ s2, perform s1 = .next s2 := by
  refine ⟨?_, rfl, by decide, ?_⟩
  · exact { inv_pending with dstFits := by decide, notBoth := by decide, inFlightGuarded := fun _ => by simp }
  · obtain ⟨s1, h1, hp⟩ := next_of_nextHas
      (o := runEvent .publish (issue 0x301#32 { pending [] with dstAddr := 0x1020#32, dstCap := 1#32 }))
      (p := fun s1 => nextHas (perform s1) fun _ => true) (by decide +kernel)
    obtain ⟨s2, h2, _⟩ := next_of_nextHas hp
    exact ⟨s1, h1, s2, h2⟩

/-- For ResetEventClearsRegisters and ResetEventAndMemory: busy and idle. -/
theorem witness_ResetEvent :
    { enc [0x4D] 5#32 with inputs := [.reset] }.inputs = .reset :: [] ∧ (enc [0x4D] 5#32).busy = true ∧
    (idle [0x4D] [.reset]).inputs = .reset :: [] ∧ (idle [0x4D] [.reset]).busy = false ∧
    (footprint (enc [0x4D] 5#32)).writes 0x1015 = false ∧
    ∃ t, step { enc [0x4D] 5#32 with inputs := [.reset] } = .next t ∧ (!t.busy) = true :=
  ⟨by decide +kernel, by decide +kernel, by decide +kernel, by decide +kernel, by decide +kernel,
    next_of_nextHas (by decide +kernel)⟩

theorem witness_StepKeepsInvariant :
    (enc [0x4D] 5#32).Inv ∧ ∃ t, step (enc [0x4D] 5#32) = .next t ∧ (!t.busy) = true :=
  ⟨inv_enc, next_of_nextHas (by decide +kernel)⟩

theorem witness_LaunchParametersAndIdleMachine :
    (idle [] []).inputs = [] ∧ (idle [] []).busy = false ∧ ∃ t, step (idle [] []) = .next t ∧ (!t.busy) = true :=
  ⟨rfl, rfl, next_of_nextHas (by decide +kernel)⟩

/-- ENCODE 0x1000, 1, 0x1010, 5 with two early reads of STATUS; a source without storage; overlapping buffers. -/
theorem witness_PseudoInstructionRunsCommand :
    (idle [0x4D] (encodeEvents small 0x1000#32 1#32 0x1010#32 5#32 2)).busy = false ∧
    (idle [0x4D] (encodeEvents small 0x1000#32 1#32 0x1010#32 5#32 2)).inputs =
      commandEvents small (.encode true true) 0x1000#32 1#32 0x1010#32 5#32 2 ++ [] ∧
    (∃ u, exec (.encode true true) (enc [0x4D] 5#32) = .next u ∧ (u.err == 0#4) = true) ∧
    exec (.encode true true) (issued 0x301#32 0x0FFF#32 3#32 0x1010#32 5#32 []) = .fault (.emem 0x0FFF) ∧
    exec (.encode true true) (issued 0x301#32 0x1000#32 3#32 0x1002#32 5#32 []) = .refused .overlap ∧
    issue (encodeCmd (.encode true true))
      { idle [0x4D] [] with srcAddr := addressValue small 0x1000#32, srcLen := 1#32,
                            dstAddr := addressValue small 0x1010#32, dstCap := 5#32 } = enc [0x4D] 5#32 :=
  ⟨rfl, by decide +kernel, next_of_nextHas (by decide +kernel), fault_of_faultOf (by decide +kernel),
    refused_of_refusalOf (by decide +kernel), by decide +kernel⟩

/-- Writes pending both ways, none in use; and a platform where every write is visible at once. -/
theorem witness_HostOrderingMakesWritesVisible :
    (∀ es, (pending es).Inv) ∧ (pending []).unseen = [(0x1000, 0x07)] ∧ (pending []).inUse 0x1000 = false ∧
    (pending [.publish]).inputs = .publish :: [] ∧ (pending [.acquire]).inputs = .acquire :: [] ∧
    (pending [.settle 0x1000]).inputs = .settle 0x1000 :: [] ∧ (pending [.settle 0x1010]).inputs = .settle 0x1010 :: [] ∧
    (enc [0x4D] 5#32).Inv ∧ (enc [0x4D] 5#32).plat.ordering = { toEngine := .atOnce, toHost := .atOnce } :=
  ⟨fun _ => { inv_pending with inFlightGuarded := fun h => by cases h }, rfl, rfl, rfl, rfl, rfl, rfl, inv_enc, rfl⟩

end Sys2Proof.Tests
end

section
/-! The launch parameters and the idle machine (00_scope.md R7, 40_command_interface.md R110). -/

namespace Sys2Proof.Machine

/-! ### No operation writes the launch parameters -/

@[simp] theorem writeReg_plat (r : Reg) (v : Word) (s : State) : (writeReg r v s).plat = s.plat := by
  obtain ⟨-, -, h⟩ | ⟨-, h⟩ | ⟨-, h⟩ | ⟨-, -, h⟩ | ⟨-, -, h⟩ | ⟨-, -, h⟩ | ⟨-, -, h⟩ | h := writeReg_cases r v s <;>
    simp only [h, issue_plat, statusWrite_plat, overrun_plat]

theorem hostRegRead_keeps_plat {a : Nat} {w : BusWidth} {s t : State} (h : hostRegRead a w s = .next t) :
    t.plat = s.plat := by
  obtain ⟨r, -, rfl⟩ | ⟨-, rfl⟩ := hostRegRead_next h
  · exact readReg_plat r s
  · rfl

theorem hostRegWrite_keeps_plat {a : Nat} {w : BusWidth} {v : Word} {s t : State}
    (h : hostRegWrite a w v s = .next t) : t.plat = s.plat := by
  obtain ⟨r, -, rfl⟩ | ⟨-, rfl⟩ := hostRegWrite_next h
  · exact writeReg_plat r v s
  · rfl

theorem settleByte_keeps_plat {a : Nat} {s t : State} (h : settleByte a s = .next t) : t.plat = s.plat := by
  obtain ⟨v, -, -, rfl⟩ | ⟨-, rfl⟩ := settleByte_next h <;> rfl

theorem engineTurn_keeps_plat {s t : State} (h : engineTurn s = .next t) : t.plat = s.plat := by
  obtain ⟨-, hp⟩ | ⟨-, rfl⟩ := engineTurn_next h
  · obtain ⟨code, n, bs, -, rfl⟩ := perform_next hp
    exact complete_plat code n _
  · rfl

theorem runEvent_keeps_plat {e : Event} {s t : State} (h : runEvent e s = .next t) : t.plat = s.plat := by
  obtain ⟨a, w, -, h⟩ | ⟨a, w, v, -, h⟩ | ⟨a, n, -, h⟩ | ⟨a, bs, -, h⟩ | ⟨-, h⟩ | ⟨-, rfl⟩ | ⟨a, -, h⟩ |
    ⟨-, h⟩ | ⟨-, rfl⟩ := runEvent_next h
  · exact hostRegRead_keeps_plat h
  · exact hostRegWrite_keeps_plat h
  · obtain ⟨-, rfl⟩ := hostBufRead_next h
    rfl
  · obtain ⟨-, rfl⟩ := hostBufWrite_next h
    exact hostStore_plat s a bs
  · obtain ⟨-, rfl⟩ := hostPublish_next h
    rfl
  · exact hostAcquire_plat s
  · exact settleByte_keeps_plat h
  · exact engineTurn_keeps_plat h
  · exact resetEvent_plat s

/-- Taking the next event off State.inputs leaves the launch parameters alone, and so does the event. -/
theorem step_keeps_plat {s t : State} (h : step s = .next t) : t.plat = s.plat := by
  obtain ⟨-, h⟩ | ⟨e, rest, -, h⟩ := step_next h
  · exact engineTurn_keeps_plat h
  · exact (runEvent_keeps_plat h).trans rfl

/-! ### The idle machine -/

/-- R105 gives the engine no step while BUSY = 0. -/
theorem engineTurn_idle {s : State} (hb : s.busy = false) : engineTurn s = .next s := by
  simp [engineTurn, hb]

theorem step_idle {s : State} (hi : s.inputs = []) (hb : s.busy = false) : step s = .next s :=
  (step_nil hi).trans (engineTurn_idle hb)

/-- Settles O57: every event keeps the launch parameters, and the engine's turn does nothing while BUSY = 0. -/
theorem launchParametersAndIdleMachine : Obligations.LaunchParametersAndIdleMachine :=
  ⟨fun _ _ => step_keeps_plat, fun _ => step_idle⟩

end Sys2Proof.Machine
end

section
/-! The invariant of the machine: it holds after reset, and every event keeps it (10_state.md R38,
40_command_interface.md R110). -/

namespace Sys2Proof.Machine

/-! ### Which cells a write lists -/

/-- Cells that lie in a range of valid addresses, or were listed before, all have storage (20_memory.md R56). -/
theorem backed_of_range_or_mem {p : Platform} {m m' : Cells} {a n : Nat} (hm : ∀ c ∈ m, p.valid c.1 = true)
    (hv : ∀ i, i < n → p.valid (a + i) = true) (h : ∀ c ∈ m', (a ≤ c.1 ∧ c.1 < a + n) ∨ c ∈ m) :
    ∀ c ∈ m', p.valid c.1 = true := by
  intro c hc
  rcases h c hc with ⟨hle, hlt⟩ | hc
  · simpa [Nat.add_sub_cancel' hle] using hv (c.1 - a) (by omega)
  · exact hm c hc

/-! ### The host's copy of memory (R62) -/

theorem wf_hostCopy {s : State} {m : Memory} (hs : s.hostMem.wf = true) (hm : m.wf = true) :
    (s.hostCopy m).wf = true := by
  unfold State.hostCopy
  split
  · exact hs
  · exact hm

theorem hostCopy_of_atOnce {s : State} (m : Memory) (h : s.plat.ordering.toHost = .atOnce) :
    s.hostCopy m = s.hostMem := by
  rw [State.hostCopy, h]

/-! ### The buffers of a command in flight -/

/-- A change of memory that leaves every byte closed to the host alone leaves a recorded footprint what it was: the
command reads closed bytes only. -/
theorem footprint_of_closed_unchanged {s t : State} (hw : footprint s ∈ s.windows) (hc : t.cmd = s.cmd)
    (h1 : t.srcAddr = s.srcAddr) (h2 : t.srcLen = s.srcLen) (h3 : t.dstAddr = s.dstAddr) (h4 : t.dstCap = s.dstCap)
    (hm : ∀ a, s.inUse a = true → t.mem.byteAt a = s.mem.byteAt a) : footprint t = footprint s := by
  refine footprint_congr hc h1 h2 h3 h4 fun a ha => (hm a ?_).symm
  exact List.any_eq_true.2 ⟨footprint s, hw, by simp [Footprint.touches, ha]⟩

/-! ### Each operation keeps the invariant -/

/-- The invariant holds after reset on every well-formed platform (10_state.md R38). -/
theorem resetOn_inv {p : Platform} (hp : p.wf = true) : (State.resetOn p).Inv where
  platWf := hp
  memWf := rfl
  memBacked := by simp [State.resetOn]
  unseenSorted := rfl
  unseenBacked := by simp [State.resetOn]
  unseenOnlyOnFence := fun _ => rfl
  hostMemWf := rfl
  hostMemOnlyOnFence := fun _ => rfl
  srcFits := Nat.two_pow_pos _
  dstFits := Nat.two_pow_pos _
  notBoth := by simp [State.resetOn]
  errKnown := Nat.zero_le _
  resultOfErr := fun h => absurd rfl h
  inFlightGuarded := fun h => by cases h

/-- The invariant does not look at the events to come. -/
theorem State.Inv.withInputs {s : State} (h : s.Inv) (rest : List Event) : State.Inv { s with inputs := rest } :=
  { h with }

/-- A change of what the two sides see of memory keeps the invariant when the new cells are canonical and backed, and no
byte closed to the host changes (70_reset_and_hazards.md R245). -/
theorem State.Inv.withMemories {s : State} (h : s.Inv) {m c : Memory} {u : Cells} (hm : m.wf = true)
    (hmb : ∀ d ∈ m, s.plat.valid d.1 = true) (hclosed : ∀ a, s.inUse a = true → m.byteAt a = s.mem.byteAt a)
    (hu : Memory.sorted u = true) (hub : ∀ d ∈ u, s.plat.valid d.1 = true)
    (huf : s.plat.ordering.toEngine = .atOnce → u = []) (hc : c.wf = true) :
    State.Inv { s with mem := m, unseen := u, hostMem := s.hostCopy c } :=
  { h with
    memWf := hm
    memBacked := hmb
    unseenSorted := hu
    unseenBacked := hub
    unseenOnlyOnFence := huf
    hostMemWf := wf_hostCopy h.hostMemWf hc
    hostMemOnlyOnFence := fun ho => (hostCopy_of_atOnce (s := s) c ho).trans (h.hostMemOnlyOnFence ho)
    inFlightGuarded := fun hb => by
      have hw := h.inFlightGuarded hb
      have hf : footprint { s with mem := m } = footprint s :=
        footprint_of_closed_unchanged hw rfl rfl rfl rfl rfl hclosed
      exact hf ▸ hw }

/-- A STATUS read that empties the windows returns DONE = 1, and then no command is in flight. -/
theorem readReg_keeps_inv {s : State} (h : s.Inv) (r : Reg) : (readReg r s).Inv :=
  { h with
    inFlightGuarded := fun hb => by
      have hd : s.done ≠ true := fun hd => h.notBoth ⟨hb, hd⟩
      have hw : (readReg r s).windows = s.windows := by simp [hd]
      exact hw ▸ h.inFlightGuarded hb }

theorem issue_keeps_inv {s : State} (h : s.Inv) (w : Word) : (issue w s).Inv :=
  { h with
    notBoth := by simp
    inFlightGuarded := by simp }

theorem statusWrite_keeps_inv {s : State} (h : s.Inv) (v : Word) : (statusWrite v s).Inv :=
  { h with
    notBoth := fun ⟨hb, hd⟩ => h.notBoth ⟨hb, (Bool.and_eq_true_iff.1 hd).1⟩ }

theorem overrun_keeps_inv {s : State} (h : s.Inv) : (overrun s).Inv := { h with }

/-- A register write changes an argument register only while no command is in flight (10_state.md R36). -/
theorem writeReg_keeps_inv {s : State} (h : s.Inv) (r : Reg) (v : Word) : (writeReg r v s).Inv := by
  obtain ⟨-, -, e⟩ | ⟨-, e⟩ | ⟨-, e⟩ | ⟨-, hb, e⟩ | ⟨-, hb, e⟩ | ⟨-, hb, e⟩ | ⟨-, hb, e⟩ | e := writeReg_cases r v s <;>
    rw [e]
  · exact issue_keeps_inv h v
  · exact statusWrite_keeps_inv h v
  · exact overrun_keeps_inv h
  · exact { h with srcFits := addressValue_lt s.plat v, inFlightGuarded := by simp [hb] }
  · exact { h with inFlightGuarded := by simp [hb] }
  · exact { h with dstFits := addressValue_lt s.plat v, inFlightGuarded := by simp [hb] }
  · exact { h with inFlightGuarded := by simp [hb] }
  · exact h

theorem hostRegRead_keeps_inv {a : Nat} {w : BusWidth} {s t : State} (h : s.Inv) (hs : hostRegRead a w s = .next t) :
    t.Inv := by
  obtain ⟨r, -, rfl⟩ | ⟨-, rfl⟩ := hostRegRead_next hs
  · exact readReg_keeps_inv h r
  · exact { h with }

theorem hostRegWrite_keeps_inv {a : Nat} {w : BusWidth} {v : Word} {s t : State} (h : s.Inv)
    (hs : hostRegWrite a w v s = .next t) : t.Inv := by
  obtain ⟨r, -, rfl⟩ | ⟨-, rfl⟩ := hostRegWrite_next hs
  · exact writeReg_keeps_inv h r v
  · exact h

/-- Host bytes go to backed addresses outside the closed buffers, at once or on a fence. -/
theorem hostBufWrite_keeps_inv {a : Nat} {bs : List Byte} {s t : State} (h : s.Inv) (hs : hostBufWrite a bs s = .next t) :
    t.Inv := by
  obtain ⟨hr, rfl⟩ := hostBufWrite_next hs
  rw [hostRefusal_eq_none] at hr
  have hv : ∀ i, i < bs.length → s.plat.valid (a + i) = true := fun i hi => (hr i hi).1
  have hclosed : ∀ x, s.inUse x = true → (s.mem.store a bs).byteAt x = s.mem.byteAt x := fun x hx =>
    Memory.byteAt_store_outside <| by
      by_contra hc
      have := (hr (x - a) (by omega)).2
      rw [show a + (x - a) = x by omega, hx] at this
      cases this
  unfold State.hostStore
  split
  · exact h.withMemories (Memory.wf_store a bs h.memWf)
      (backed_of_range_or_mem h.memBacked hv fun _ => Memory.mem_store) hclosed h.unseenSorted h.unseenBacked
      h.unseenOnlyOnFence (Memory.wf_store a bs h.hostMemWf)
  · rename_i ho
    exact { h with
      unseenSorted := Cells.sorted_assignBytes a bs h.unseenSorted
      unseenBacked := backed_of_range_or_mem h.unseenBacked hv fun _ => Cells.mem_assignBytes
      unseenOnlyOnFence := fun ho' => absurd (ho.symm.trans ho') nofun }

theorem hostPublish_keeps_inv {s t : State} (h : s.Inv) (hs : hostPublish s = .next t) : t.Inv := by
  obtain ⟨hfree, rfl⟩ := hostPublish_next hs
  have hclosed : ∀ x, s.inUse x = true → (s.mem.writeCells s.unseen).byteAt x = s.mem.byteAt x := fun x hx => by
    rw [Memory.byteAt_writeCells]
    cases hb : s.unseen.byteFor x with
    | none => rfl
    | some v => exact absurd (hx.symm.trans (hfree _ (Cells.mem_of_byteFor hb))) nofun
  exact h.withMemories (Memory.wf_writeCells s.unseen h.memWf)
    (fun c hc => (Memory.mem_writeCells hc).elim (h.unseenBacked c) (h.memBacked c)) hclosed rfl (by simp)
    (fun _ => rfl) (Memory.wf_writeCells s.unseen h.hostMemWf)

theorem hostAcquire_keeps_inv {s : State} (h : s.Inv) : (hostAcquire s).Inv :=
  h.withMemories h.memWf h.memBacked (fun _ _ => rfl) h.unseenSorted h.unseenBacked h.unseenOnlyOnFence h.memWf

theorem settleByte_keeps_inv {a : Nat} {s t : State} (h : s.Inv) (hs : settleByte a s = .next t) : t.Inv := by
  obtain ⟨v, hv, hfree, rfl⟩ | ⟨-, rfl⟩ := settleByte_next hs
  · have hclosed : ∀ x, s.inUse x = true → (s.mem.write a v).byteAt x = s.mem.byteAt x := fun x hx => by
      rw [Memory.byteAt_write, if_neg]
      rintro rfl
      exact absurd (hx.symm.trans hfree) nofun
    have hbacked : ∀ c ∈ s.mem.write a v, s.plat.valid c.1 = true := fun c hc => by
      obtain ⟨rfl, -⟩ | hc := Memory.mem_write hc
      · exact h.unseenBacked _ (Cells.mem_of_byteFor hv)
      · exact h.memBacked c hc
    exact h.withMemories (Memory.wf_write a v h.memWf) hbacked hclosed (Memory.sorted_remove a h.unseenSorted)
      (fun c hc => h.unseenBacked c (List.mem_of_mem_filter hc))
      (fun ho => by simp [h.unseenOnlyOnFence ho, Memory.remove]) (Memory.wf_write a v h.hostMemWf)
  · exact h.withMemories h.memWf h.memBacked (fun _ _ => rfl) h.unseenSorted h.unseenBacked h.unseenOnlyOnFence
      (Memory.wf_write a _ h.hostMemWf)

/-- The codes are 0..5 (60_exceptions.md R211). -/
theorem ErrCode.toNat_bits_le (code : ErrCode) : code.bits.toNat ≤ 5 := by cases code <;> decide

/-- A completion keeps the invariant whatever bytes the command stored at valid addresses: no command is in flight after
it, so none has buffers to guard. -/
theorem engineTurn_keeps_inv {s t : State} (h : s.Inv) (hs : engineTurn s = .next t) : t.Inv := by
  obtain ⟨-, hp⟩ | ⟨-, rfl⟩ := engineTurn_next hs
  · obtain ⟨code, n, bs, hv, rfl⟩ := perform_next hp
    exact { h with
      memWf := Memory.wf_store _ bs h.memWf
      memBacked := backed_of_range_or_mem h.memBacked ((firstInvalid_eq_none _ _ _).1 hv) fun _ => Memory.mem_store
      notBoth := by simp
      errKnown := code.toNat_bits_le
      resultOfErr := fun he => if_neg he
      inFlightGuarded := nofun }
  · exact h

/-- A reset leaves free bytes at valid addresses only, and the host's own side as it was (70_reset_and_hazards.md R241). -/
theorem resetEvent_keeps_inv {s : State} (h : s.Inv) : (resetEvent s).Inv :=
  { resetOn_inv h.platWf with
    memWf := wf_storeFree _ _ _ _ h.memWf
    memBacked := fun c hc => (mem_storeFree hc).elim id (h.memBacked c)
    unseenSorted := h.unseenSorted
    unseenBacked := h.unseenBacked
    unseenOnlyOnFence := h.unseenOnlyOnFence
    hostMemWf := h.hostMemWf
    hostMemOnlyOnFence := h.hostMemOnlyOnFence
    inFlightGuarded := nofun }

/-! ### The invariant along a run -/

theorem runEvent_keeps_inv {e : Event} {s t : State} (h : s.Inv) (hs : runEvent e s = .next t) : t.Inv := by
  obtain ⟨a, w, -, hs⟩ | ⟨a, w, v, -, hs⟩ | ⟨a, n, -, hs⟩ | ⟨a, bs, -, hs⟩ | ⟨-, hs⟩ | ⟨-, rfl⟩ | ⟨a, -, hs⟩ |
    ⟨-, hs⟩ | ⟨-, rfl⟩ := runEvent_next hs
  · exact hostRegRead_keeps_inv h hs
  · exact hostRegWrite_keeps_inv h hs
  · obtain ⟨-, rfl⟩ := hostBufRead_next hs
    exact { h with }
  · exact hostBufWrite_keeps_inv h hs
  · exact hostPublish_keeps_inv h hs
  · exact hostAcquire_keeps_inv h
  · exact settleByte_keeps_inv h hs
  · exact engineTurn_keeps_inv h hs
  · exact resetEvent_keeps_inv h

/-- Settles O55, on the reference platform. -/
theorem resetMeetsInvariant : Obligations.ResetMeetsInvariant := resetOn_inv (by decide)

/-- Settles O56, event by event. -/
theorem stepKeepsInvariant : Obligations.StepKeepsInvariant := by
  intro s t h hs
  obtain ⟨-, hs⟩ | ⟨e, rest, -, hs⟩ := step_next hs
  · exact engineTurn_keeps_inv h hs
  · exact runEvent_keeps_inv (h.withInputs rest) hs

end Sys2Proof.Machine
end

section
/-! How the registers of the block move (10_state.md R22 to R36): what one step can do to them, said once, and the rules
of BUSY, DONE, OVR, ERR, RESULT and the frozen arguments drawn from it. -/

namespace Sys2Proof.Machine

/-! ### What a register write does to each field -/

/-- The register that an aligned access names stands at its offset (10_state.md R21). -/
theorem Reg.eq_offset_of_ofOffset {off : Nat} {r : Reg} (h : Reg.ofOffset off = some r) : off = r.offset := by
  unfold Reg.ofOffset at h
  split at h <;> cases h <;> rfl

theorem busReg_eq_some {p : Platform} {a : Nat} {w : BusWidth} {r : Reg} (h : busReg p a w = some r) :
    w = .w32 ∧ a = p.regBase + r.offset := by
  unfold busReg at h
  split at h
  · rename_i hw
    have := Reg.eq_offset_of_ofOffset h
    exact ⟨hw.1, by omega⟩
  · cases h

@[simp] theorem writeReg_err (r : Reg) (v : Word) (s : State) : (writeReg r v s).err = s.err := by
  obtain ⟨-, -, h⟩ | ⟨-, h⟩ | ⟨-, h⟩ | ⟨-, -, h⟩ | ⟨-, -, h⟩ | ⟨-, -, h⟩ | ⟨-, -, h⟩ | h := writeReg_cases r v s <;>
    simp [h]

@[simp] theorem writeReg_result (r : Reg) (v : Word) (s : State) : (writeReg r v s).result = s.result := by
  obtain ⟨-, -, h⟩ | ⟨-, h⟩ | ⟨-, h⟩ | ⟨-, -, h⟩ | ⟨-, -, h⟩ | ⟨-, -, h⟩ | ⟨-, -, h⟩ | h := writeReg_cases r v s <;>
    simp [h]

/-- A write of CMD leaves a command in flight, the new one or the old; no other write moves BUSY (R23). -/
@[simp] theorem writeReg_busy (r : Reg) (v : Word) (s : State) :
    (writeReg r v s).busy = (s.busy || decide (r = .cmd)) := by
  cases r <;> cases hb : s.busy <;> simp [writeReg, writeIdle, writeBusy, hb]

/-- DONE is cleared by an issue and by the acknowledgement, and set by no write (R24). -/
@[simp] theorem writeReg_done (r : Reg) (v : Word) (s : State) :
    (writeReg r v s).done =
      (s.done && !(!s.busy && decide (r = .cmd)) && !(decide (r = .status) && v.getLsbD 1)) := by
  cases r <;> cases hb : s.busy <;> simp [writeReg, writeIdle, writeBusy, hb]

/-- The registers whose writes are dropped with OVR while a command is in flight (40_command_interface.md R102). -/
def Reg.dropsInFlight (r : Reg) : Bool := decide (r.offset ∈ [0x00, 0x08, 0x0C, 0x10, 0x14])

/-- OVR is set by a dropped write, and cleared by bit 2 of a STATUS write (10_state.md R25). -/
@[simp] theorem writeReg_ovr (r : Reg) (v : Word) (s : State) :
    (writeReg r v s).ovr =
      (s.ovr && !(decide (r = .status) && v.getLsbD 2) || (s.busy && r.dropsInFlight)) := by
  cases r <;> cases hb : s.busy <;> simp [writeReg, writeIdle, writeBusy, hb, Reg.dropsInFlight, Reg.offset]

/-! ### What a step does to the registers -/

/-- Every register of the block holds what it held (10_state.md R21). -/
structure State.SameRegisters (s t : State) : Prop where
  cmd : t.cmd = s.cmd
  busy : t.busy = s.busy
  done : t.done = s.done
  ovr : t.ovr = s.ovr
  err : t.err = s.err
  srcAddr : t.srcAddr = s.srcAddr
  srcLen : t.srcLen = s.srcLen
  dstAddr : t.dstAddr = s.dstAddr
  dstCap : t.dstCap = s.dstCap
  result : t.result = s.result

/-- A command in flight ends: `t` is a completion over the registers of `s` (40_command_interface.md R106). -/
def State.CompletesTo (s t : State) : Prop :=
  s.busy = true ∧ ∃ code n u, s.SameRegisters u ∧ t = complete code n u

theorem State.SameRegisters.refl (s : State) : s.SameRegisters s := ⟨rfl, rfl, rfl, rfl, rfl, rfl, rfl, rfl, rfl, rfl⟩

/-- Buffer accesses of the host move no register. -/
theorem sameRegisters_hostStore (s : State) (a : Nat) (bs : List Byte) : s.SameRegisters (s.hostStore a bs) := by
  constructor <;> simp

theorem engineTurn_registers {s t : State} (h : engineTurn s = .next t) : s.SameRegisters t ∨ s.CompletesTo t := by
  obtain ⟨hb, hp⟩ | ⟨-, rfl⟩ := engineTurn_next h
  · obtain ⟨code, n, bs, -, rfl⟩ := perform_next hp
    refine .inr ⟨hb, code, n, _, ?_, rfl⟩
    exact { State.SameRegisters.refl s with }
  · exact .inl (.refl _)

/-- The four ways of an event with the registers: none moves, one is written over the bus, the command in flight
completes, or all are reset. -/
theorem runEvent_registers {e : Event} {s t : State} (h : runEvent e s = .next t) :
    s.SameRegisters t ∨
    (∃ r v, e = .regWrite (s.plat.regBase + r.offset) .w32 v ∧ t = writeReg r v s) ∨
    s.CompletesTo t ∨
    (e = .reset ∧ t = resetEvent s) := by
  have same := State.SameRegisters.refl s
  obtain ⟨a, w, -, h⟩ | ⟨a, w, v, rfl, h⟩ | ⟨a, n, -, h⟩ | ⟨a, bs, -, h⟩ | ⟨-, h⟩ | ⟨-, rfl⟩ | ⟨a, -, h⟩ |
    ⟨-, h⟩ | ⟨rfl, rfl⟩ := runEvent_next h
  · obtain ⟨r, -, rfl⟩ | ⟨-, rfl⟩ := hostRegRead_next h <;> exact .inl { same with }
  · obtain ⟨r, hr, rfl⟩ | ⟨-, rfl⟩ := hostRegWrite_next h
    · obtain ⟨rfl, rfl⟩ := busReg_eq_some hr
      exact .inr (.inl ⟨r, v, rfl, rfl⟩)
    · exact .inl same
  · obtain ⟨-, rfl⟩ := hostBufRead_next h
    exact .inl { same with }
  · obtain ⟨-, rfl⟩ := hostBufWrite_next h
    exact .inl (sameRegisters_hostStore s a bs)
  · obtain ⟨-, rfl⟩ := hostPublish_next h
    exact .inl { same with }
  · exact .inl { same with }
  · obtain ⟨v, -, -, rfl⟩ | ⟨-, rfl⟩ := settleByte_next h <;> exact .inl { same with }
  · exact (engineTurn_registers h).imp_right fun h => .inr (.inl h)
  · exact .inr (.inr (.inr ⟨rfl, rfl⟩))

theorem step_registers {s t : State} (h : step s = .next t) :
    s.SameRegisters t ∨
    (∃ r v rest, s.inputs = .regWrite (s.plat.regBase + r.offset) .w32 v :: rest ∧
      t = writeReg r v { s with inputs := rest }) ∨
    s.CompletesTo t ∨
    (∃ rest, s.inputs = .reset :: rest ∧ t = resetEvent { s with inputs := rest }) := by
  obtain ⟨-, h⟩ | ⟨e, rest, hin, h⟩ := step_next h
  · exact (engineTurn_registers h).imp_right fun h => .inr (.inl h)
  · obtain same | ⟨r, v, rfl, rfl⟩ | ⟨hb, code, n, u, same, rfl⟩ | ⟨rfl, rfl⟩ := runEvent_registers h
    · exact .inl { same with }
    · exact .inr (.inl ⟨r, v, rest, hin, rfl⟩)
    · exact .inr (.inr (.inl ⟨hb, code, n, u, { same with }, rfl⟩))
    · exact .inr (.inr (.inr ⟨rest, hin, rfl⟩))

/-! ### The rules of the registers -/

/-- A flag that a step keeps neither rises nor falls in it. -/
theorem flag_kept {b : Bool} {P Q : Prop} : (b = false → b = true → P) ∧ (b = true → b = false → Q) := by
  cases b <;> simp

/-- Settles O42: only a CMD write raises BUSY, and a completion and a reset are the only other steps that move it. -/
theorem busyMovesOnlyByIssueAndCompletion : Obligations.BusyMovesOnlyByIssueAndCompletion := by
  intro s t h
  obtain same | ⟨r, v, rest, hin, rfl⟩ | ⟨hb, code, n, u, -, rfl⟩ | ⟨rest, hin, rfl⟩ := step_registers h
  · rw [same.busy]
    exact flag_kept
  · refine ⟨fun h0 h1 => ?_, fun h0 h1 => by simp [h0] at h1⟩
    obtain rfl : r = .cmd := by simpa [h0] using h1
    exact ⟨v, rest, hin, by simp [writeReg, h0, writeIdle], by simp [h0]⟩
  · exact ⟨fun h0 => by simp [hb] at h0, fun _ _ => .inl (complete_done code n u)⟩
  · exact ⟨fun _ h1 => by simp at h1, fun _ _ => .inr ⟨rest, hin⟩⟩

/-- Settles O43: a register write clears DONE only by an issue or by bit 1 of a STATUS write, and never sets it. -/
theorem doneMovesOnlyByItsRules : Obligations.DoneMovesOnlyByItsRules := by
  intro s t h
  obtain same | ⟨r, v, rest, hin, rfl⟩ | ⟨hb, code, n, u, -, rfl⟩ | ⟨rest, hin, rfl⟩ := step_registers h
  · rw [same.done]
    exact flag_kept
  · refine ⟨fun h0 h1 => by simp [h0] at h1, fun h0 h1 => ?_⟩
    by_cases hi : s.busy = true ∨ r ≠ .cmd
    · obtain ⟨rfl, hv⟩ : r = .status ∧ v.getLsbD 1 = true := by simpa [h0, hi] using h1
      exact .inr (.inr ⟨v, rest, hin, hv⟩)
    · obtain ⟨hb, rfl⟩ : s.busy = false ∧ r = .cmd := by simpa using hi
      exact .inl ⟨hb, by simp⟩
  · exact ⟨fun _ _ => ⟨hb, complete_busy code n u⟩, fun _ h1 => by simp at h1⟩
  · exact ⟨fun _ h1 => by simp at h1, fun _ _ => .inr (.inl ⟨rest, hin⟩)⟩

/-- Settles O44: a completion keeps OVR, so it moves with register writes and reset alone. -/
theorem overrunIsSticky : Obligations.OverrunIsSticky := by
  intro s t h
  obtain same | ⟨r, v, rest, hin, rfl⟩ | ⟨-, code, n, u, same, rfl⟩ | ⟨rest, hin, rfl⟩ := step_registers h
  · rw [same.ovr]
    exact flag_kept
  · refine ⟨fun h0 h1 => ?_, fun h0 h1 => ?_⟩
    · obtain ⟨hb, hr⟩ : s.busy = true ∧ r.dropsInFlight = true := by simpa [h0] using h1
      exact ⟨hb, r.offset, v, rest, of_decide_eq_true hr, hin⟩
    · obtain ⟨⟨rfl, hv⟩, -⟩ : (r = .status ∧ v.getLsbD 2 = true) ∧ _ := by simpa [h0] using h1
      exact .inr ⟨v, rest, hin, hv⟩
  · rw [complete_ovr, same.ovr]
    exact flag_kept
  · exact ⟨fun _ h1 => by simp at h1, fun _ _ => .inl ⟨rest, hin⟩⟩

/-- Settles O45: no register write changes ERR or RESULT. -/
theorem errAndResultChangeOnlyAtCompletion : Obligations.ErrAndResultChangeOnlyAtCompletion := by
  intro s t h hne
  obtain same | ⟨r, v, rest, -, rfl⟩ | ⟨hb, code, n, u, -, rfl⟩ | ⟨rest, hin, -⟩ := step_registers h
  · simp [same.err, same.result] at hne
  · simp at hne
  · exact .inl ⟨hb, complete_busy code n u, complete_done code n u⟩
  · exact .inr ⟨rest, hin⟩

/-- Settles O46: while BUSY = 1 a register write can only acknowledge or be dropped. -/
theorem argumentsAreFrozenInFlight : Obligations.ArgumentsAreFrozenInFlight := by
  intro s t h hb
  obtain same | ⟨r, v, rest, -, rfl⟩ | ⟨-, code, n, u, same, rfl⟩ | ⟨rest, hin, -⟩ := step_registers h
  · exact .inl ⟨same.cmd, same.srcAddr, same.srcLen, same.dstAddr, same.dstCap⟩
  · cases r <;> simp [writeReg, hb, writeBusy]
  · exact .inl ⟨same.cmd, same.srcAddr, same.srcLen, same.dstAddr, same.dstCap⟩
  · exact .inr ⟨rest, hin⟩

/-- Settles O54. -/
theorem resetStateValues : Obligations.ResetStateValues :=
  ⟨rfl, by decide, rfl, rfl, rfl, rfl, rfl, rfl⟩

end Sys2Proof.Machine
end

section
/-! Nothing carries over from one command to the next (90_conflicts.md C5): a command's answer is a function of the
platform, memory and the argument registers. -/

namespace Sys2Proof.Machine

/-- The state holds the inputs of a command that `s` holds: the platform, memory and the argument registers. -/
structure State.SameInputs (s' s : State) : Prop where
  plat : s'.plat = s.plat
  mem : s'.mem = s.mem
  srcAddr : s'.srcAddr = s.srcAddr
  srcLen : s'.srcLen = s.srcLen
  dstAddr : s'.dstAddr = s.dstAddr
  dstCap : s'.dstCap = s.dstCap

/-- What a command that completes answers with: the memory it leaves, ERR and RESULT. -/
def answer : Host.Outcome State Fault Refusal → Option (Memory × BitVec 4 × Word)
  | .next t => some (t.mem, t.err, t.result)
  | .fault _ => none
  | .refused _ => none

theorem answer_eq_some {o : Host.Outcome State Fault Refusal} {m : Memory} {e : BitVec 4} {w : Word} :
    answer o = some (m, e, w) ↔ ∃ t, o = .next t ∧ t.mem = m ∧ t.err = e ∧ t.result = w := by
  cases o <;> simp [answer]

section
variable {s s' : State} (hi : s'.SameInputs s)
include hi

theorem decodeScan_congr : decodeScan s' = decodeScan s := by
  rw [decodeScan, decodeScan, hi.mem, hi.srcAddr, hi.srcLen]

theorem decodeLength_congr : decodeLength s' = decodeLength s := by
  rw [decodeLength, decodeLength, hi.mem, hi.srcAddr, hi.srcLen]

theorem decodeText_congr : decodeText s' = decodeText s := by
  rw [decodeText, decodeText, decodeLength_congr hi, hi.mem, hi.srcAddr]

theorem encodeOutput_congr : encodeOutput s' = encodeOutput s := by
  rw [encodeOutput, encodeOutput, encodeRaw, encodeRaw, hi.mem, hi.srcAddr, hi.srcLen]

theorem answer_complete_congr (code : ErrCode) (n : Nat) :
    answer (.next (complete code n s')) = answer (.next (complete code n s)) := by
  simp [answer, hi.mem]

theorem answer_storeAndComplete_congr (a : Nat) (bs : List Byte) (n : Nat) :
    answer (storeAndComplete a bs n s') = answer (storeAndComplete a bs n s) := by
  unfold storeAndComplete
  rw [hi.plat]
  cases firstInvalid s.plat a bs.length with
  | none => simp [answer, hi.mem]
  | some bad => rfl

/-- The checks of an ENCODE, its text and where it goes are the same at both states. -/
theorem answer_execEncode_congr (sp dp : Bool) : answer (execEncode sp dp s') = answer (execEncode sp dp s) := by
  unfold execEncode
  simp only [hi.plat, hi.srcAddr, hi.srcLen, hi.dstAddr, hi.dstCap, encodeOutput_congr hi]
  split_ifs
  · exact answer_complete_congr hi _ _
  · exact answer_complete_congr hi _ _
  · rfl
  · cases firstInvalid s.plat s.srcAddr.toNat s.srcLen.toNat with
    | none => exact answer_storeAndComplete_congr hi _ _ _
    | some bad => rfl

/-- The checks of a DECODE, its text and where it goes are the same at both states. -/
theorem answer_execDecode_congr (sp dp : Bool) : answer (execDecode sp dp s') = answer (execDecode sp dp s) := by
  unfold execDecode
  simp only [hi.plat, hi.srcAddr, hi.dstAddr, hi.dstCap, decodeScan_congr hi, decodeLength_congr hi,
    decodeText_congr hi]
  split
  · exact answer_complete_congr hi _ _
  · cases firstInvalid s.plat s.srcAddr.toNat (decodeScan s) with
    | some bad => rfl
    | none =>
      simp only
      split_ifs
      · exact answer_complete_congr hi _ _
      · exact answer_complete_congr hi _ _
      · exact answer_complete_congr hi _ _
      · rfl
      · exact answer_storeAndComplete_congr hi _ _ _

theorem answer_exec_congr (i : Instr) : answer (exec i s') = answer (exec i s) := by
  cases i with
  | encode sp dp => exact answer_execEncode_congr hi sp dp
  | decode sp dp => exact answer_execDecode_congr hi sp dp

end

/-- Settles O32: the answers at the two states are equal, so the second command completes too. -/
theorem earlierCommandsLeaveNoTrace : Obligations.EarlierCommandsLeaveNoTrace := by
  intro i s s' t hplat hmem hsrc hlen hdst hcap h
  have ha : answer (exec i s') = answer (.next t) :=
    h ▸ answer_exec_congr ⟨hplat, hmem, hsrc, hlen, hdst, hcap⟩ i
  exact answer_eq_some.1 ha

end Sys2Proof.Machine
end

section
/-! What a command reads and writes, and how it can stop: the sizes of its sets (20_memory.md R67), the refusal of sets
that overlap, and the fault at an invalid address (20_memory.md R56, 60_exceptions.md R216). -/

namespace Sys2Proof.Machine

/-! ### The sizes of the sets -/

theorem encodeNeed_eq (n : Nat) : encodeNeed n = 4 * ((n + 2) / 3) + 1 := rfl

/-- The length law of 42_encode.md R144. -/
theorem length_encodeBytes (raw : List Byte) : (encodeBytes raw).length = textLength raw.length := by
  induction raw using encodeBytes.induct with
  | case1 b0 b1 b2 rest ih =>
    simp only [encodeBytes, List.length_append, ih, encGroup3, List.length_cons, List.length_nil, textLength, groupCount]
    omega
  | case2 b0 b1 => simp [encodeBytes, encGroup2, textLength, groupCount]
  | case3 b0 => simp [encodeBytes, encGroup1, textLength, groupCount]
  | case4 => simp [encodeBytes, textLength, groupCount]

/-- ENCODE writes as many bytes as its capacity check asks for (R146, R147). -/
theorem length_encodeOutput (s : State) : (encodeOutput s).length = encodeNeed s.srcLen.toNat := by
  simp [encodeOutput, encodeRaw, length_encodeBytes, encodeNeed]

theorem decodeScan_eq_min (s : State) : decodeScan s = min s.srcLen.toNat (decodeLength s + 1) := scanLength_eq_min ..

theorem decodeLength_le_scan (s : State) : decodeLength s ≤ decodeScan s := effectiveLength_le_scan ..

theorem expectedLength_decodeText (s : State) :
    expectedLength (decodeText s) = decodeLength s / 4 * 3 - trailingPad (decodeText s) := by
  simp [expectedLength, decodeText, truncatedLength]

/-- Only the last two characters of a text decide its trailing padding (43_decode.md R185). -/
theorem trailingPad_append (xs ys : List Byte) (h : 2 ≤ ys.length) : trailingPad (xs ++ ys) = trailingPad ys := by
  obtain ⟨a, b, l, hl⟩ : ∃ a b l, ys.reverse = a :: b :: l := by
    match hy : ys.reverse with
    | a :: b :: l => exact ⟨a, b, l, rfl⟩
    | [a] => simp [← List.length_reverse (as := ys), hy] at h
    | [] => simp [← List.length_reverse (as := ys), hy] at h
  simp [trailingPad, hl]

theorem trailingPad_le (text : List Byte) : trailingPad text ≤ 2 := by
  unfold trailingPad
  split
  · split_ifs <;> omega
  · omega

/-- A group that goes on emits three bytes and ends in no padding; one that stops emits at most two, and at most what its
own padding leaves (R177). -/
theorem decGroup_length (c0 c1 c2 c3 : Byte) :
    ((decGroup c0 c1 c2 c3).stop = false → (decGroup c0 c1 c2 c3).out.length = 3 ∧ trailingPad [c0, c1, c2, c3] = 0) ∧
    ((decGroup c0 c1 c2 c3).stop = true →
      (decGroup c0 c1 c2 c3).out.length ≤ 2 ∧
      (decGroup c0 c1 c2 c3).out.length + trailingPad [c0, c1, c2, c3] ≤ 3) := by
  have hp : trailingPad [c0, c1, c2, c3] = if isPad c3 then (if isPad c2 then 2 else 1) else 0 := rfl
  unfold decGroup
  split
  · cases h2 : isPad c2 <;> cases h3 : isPad c3 <;> simp [hp, h2, h3]
  · have := trailingPad_le [c0, c1, c2, c3]
    simp
    omega

/-- DECODE emits at most the expected length of R186: only the last group may be shortened by padding, and a group that
stops earlier leaves out more than two bytes. -/
theorem length_decodeGroups_le (text : List Byte) (h : text.length % 4 = 0) :
    (decodeGroups text).length ≤ expectedLength text := by
  induction text using decodeGroups.induct with
  | case1 c0 c1 c2 c3 rest g hstop =>
    obtain ⟨-, hs⟩ := decGroup_length c0 c1 c2 c3
    obtain ⟨hout, hpad⟩ := hs hstop
    rw [decodeGroups, if_pos hstop, expectedLength]
    cases rest with
    | nil => simp only [List.length_cons, List.length_nil]; omega
    | cons c rest =>
      have := trailingPad_le (c0 :: c1 :: c2 :: c3 :: c :: rest)
      simp only [List.length_cons] at h ⊢
      omega
  | case2 c0 c1 c2 c3 rest g hgo ih =>
    obtain ⟨hg, -⟩ := decGroup_length c0 c1 c2 c3
    obtain ⟨hout, hpad⟩ := hg (by simpa using hgo)
    rw [decodeGroups, if_neg hgo, List.length_append, hout, expectedLength]
    cases rest with
    | nil => simp [hpad, decodeGroups]
    | cons c rest =>
      have hlen : 4 ≤ (c :: rest).length := by simp only [List.length_cons] at h ⊢; omega
      have hp := trailingPad_append [c0, c1, c2, c3] (c :: rest) (by omega)
      have := trailingPad_le (c :: rest)
      have ih := ih (by simp only [List.length_cons] at h ⊢; omega)
      simp only [List.cons_append, List.nil_append] at hp
      simp only [expectedLength, List.length_cons, hp] at ih hlen ⊢
      omega
  | case3 text hshape => simp [decodeGroups]

/-- The bytes of a successful DECODE lie in its write set (43_decode.md R186). -/
theorem length_decodeGroups_decodeText_le (s : State) :
    (decodeGroups (decodeText s)).length ≤ expectedLength (decodeText s) :=
  length_decodeGroups_le _ (by simp [decodeText, truncatedLength])

/-! ### The write set that issue records -/

theorem Footprint.writes_iff (f : Footprint) (x : Nat) :
    f.writes x = true ↔ f.writeBase ≤ x ∧ x < f.writeBase + f.writeLen := by
  simp [Footprint.writes]

theorem Footprint.writes_of_writeLen_zero {f : Footprint} (h : f.writeLen = 0) (x : Nat) : f.writes x = false := by
  rw [← Bool.not_eq_true, Footprint.writes_iff]
  omega

theorem footprint_encode {s : State} {sp dp : Bool} (h : decodeCmd s.cmd = .ok (.encode sp dp)) :
    footprint s = encodeFootprint sp dp s := by
  rw [footprint, h]

theorem footprint_decode {s : State} {sp dp : Bool} (h : decodeCmd s.cmd = .ok (.decode sp dp)) :
    footprint s = decodeFootprint sp dp s := by
  rw [footprint, h]

theorem footprint_reserved {s : State} {e : DecodeError} (h : decodeCmd s.cmd = .error e) :
    footprint s = Footprint.empty := by
  rw [footprint, h]

theorem decodeFootprint_absent {sp dp : Bool} (h : sp = false ∨ dp = false) (s : State) :
    decodeFootprint sp dp s = Footprint.empty := by
  rcases h with rfl | rfl <;> simp [decodeFootprint]

/-- Settles O59: each command's footprint read off its definition, E written out as R186 has it. -/
theorem writeSetOfACommand : Obligations.WriteSetOfACommand := by
  intro s x
  refine ⟨fun sp hc => ?_, fun sp hc => ?_, fun len text hlen htext hc => ?_, fun sp dp hc habsent => ?_, fun e hc => ?_⟩
  · rw [footprint_encode hc, Footprint.writes_iff]
    simp [encodeFootprint, encodeNeed_eq]
  · exact Footprint.writes_of_writeLen_zero (by simp [footprint_encode hc, encodeFootprint]) x
  · subst hlen htext
    have hE : (decodeFootprint true true s).writeLen = decodeLength s / 4 * 3 - trailingPad (decodeText s) :=
      expectedLength_decodeText s
    rw [footprint_decode hc, Footprint.writes_iff, hE]
    rfl
  · exact Footprint.writes_of_writeLen_zero (by rw [footprint_decode hc, decodeFootprint_absent habsent]; rfl) x
  · exact Footprint.writes_of_writeLen_zero (by rw [footprint_reserved hc]; rfl) x

/-! ### How a command stops without completing -/

theorem validRange_iff (p : Platform) (a n : Nat) : validRange p a n ↔ firstInvalid p a n = none :=
  (firstInvalid_eq_none p a n).symm

theorem exists_firstInvalid {p : Platform} {a n : Nat} (h : ¬validRange p a n) :
    ∃ bad, firstInvalid p a n = some bad :=
  Option.ne_none_iff_exists'.1 fun hn => h ((validRange_iff p a n).2 hn)

theorem apart_iff (a n b k : Nat) : apart a n b k ↔ rangesOverlap a n b k = false :=
  (rangesOverlap_eq_false a n b k).symm

theorem not_apart_iff (a n b k : Nat) : ¬apart a n b k ↔ rangesOverlap a n b k = true := by
  rw [apart_iff, Bool.not_eq_false]

/-- ENCODE past its presence and capacity checks, with its sets apart (42_encode.md R151). -/
structure State.EncodeReady (s : State) : Prop where
  fits : encodeNeed s.srcLen.toNat ≤ s.dstCap.toNat
  disjoint : rangesOverlap s.srcAddr.toNat s.srcLen.toNat s.dstAddr.toNat (encodeNeed s.srcLen.toNat) = false

/-- DECODE past every check, with its sets apart (43_decode.md R192). -/
structure State.DecodeReady (s : State) : Prop where
  scanned : firstInvalid s.plat s.srcAddr.toNat (decodeScan s) = none
  long : 4 ≤ decodeLength s
  fits : expectedLength (decodeText s) ≤ s.dstCap.toNat
  disjoint :
    rangesOverlap s.srcAddr.toNat (decodeScan s) s.dstAddr.toNat (expectedLength (decodeText s)) = false

/-! ### The ways out of each command, one equation each (42_encode.md R151, 43_decode.md R192) -/

theorem exec_absent {i : Instr} (h : (i.sp && i.dp) = false) (s : State) : exec i s = .next (complete .earg 0 s) := by
  cases i with
  | encode sp dp =>
    have h : (sp && dp) = false := h
    simp [execEncode, h]
  | decode sp dp =>
    have h : (sp && dp) = false := h
    simp [execDecode, h]

theorem eq_of_present {i : Instr} (h : (i.sp && i.dp) = true) : i = .encode true true ∨ i = .decode true true := by
  cases i with
  | encode sp dp =>
    obtain ⟨rfl, rfl⟩ : sp = true ∧ dp = true := Bool.and_eq_true_iff.1 h
    exact .inl rfl
  | decode sp dp =>
    obtain ⟨rfl, rfl⟩ : sp = true ∧ dp = true := Bool.and_eq_true_iff.1 h
    exact .inr rfl

theorem execEncode_short {s : State} (h : s.dstCap.toNat < encodeNeed s.srcLen.toNat) :
    execEncode true true s = .next (complete .ecap 0 s) := by
  simp [execEncode, h]

theorem execEncode_overlap {s : State} (h : encodeNeed s.srcLen.toNat ≤ s.dstCap.toNat)
    (ho : rangesOverlap s.srcAddr.toNat s.srcLen.toNat s.dstAddr.toNat (encodeNeed s.srcLen.toNat) = true) :
    execEncode true true s = .refused .overlap := by
  simp [execEncode, Nat.not_lt.2 h, ho]

theorem execEncode_unreadable {s : State} (h : s.EncodeReady) {bad : Nat}
    (hr : firstInvalid s.plat s.srcAddr.toNat s.srcLen.toNat = some bad) :
    execEncode true true s = .fault (.emem bad) := by
  simp only [execEncode, Nat.not_lt.2 h.fits, h.disjoint]
  simp [hr]

theorem execEncode_readable {s : State} (h : s.EncodeReady)
    (hr : firstInvalid s.plat s.srcAddr.toNat s.srcLen.toNat = none) :
    execEncode true true s =
      storeAndComplete s.dstAddr.toNat (encodeOutput s) (textLength s.srcLen.toNat) s := by
  simp only [execEncode, Nat.not_lt.2 h.fits, h.disjoint]
  simp [hr]

/-- The four ways of ENCODE past its presence check (42_encode.md R151, log 8). -/
theorem execEncode_cases (s : State) :
    (s.dstCap.toNat < encodeNeed s.srcLen.toNat ∧ execEncode true true s = .next (complete .ecap 0 s)) ∨
    (encodeNeed s.srcLen.toNat ≤ s.dstCap.toNat ∧
      rangesOverlap s.srcAddr.toNat s.srcLen.toNat s.dstAddr.toNat (encodeNeed s.srcLen.toNat) = true ∧
      execEncode true true s = .refused .overlap) ∨
    (s.EncodeReady ∧ ∃ bad, firstInvalid s.plat s.srcAddr.toNat s.srcLen.toNat = some bad ∧
      execEncode true true s = .fault (.emem bad)) ∨
    (s.EncodeReady ∧ firstInvalid s.plat s.srcAddr.toNat s.srcLen.toNat = none ∧
      execEncode true true s =
        storeAndComplete s.dstAddr.toNat (encodeOutput s) (textLength s.srcLen.toNat) s) := by
  rcases Nat.lt_or_ge s.dstCap.toNat (encodeNeed s.srcLen.toNat) with hc | hc
  · exact .inl ⟨hc, execEncode_short hc⟩
  · cases ho : rangesOverlap s.srcAddr.toNat s.srcLen.toNat s.dstAddr.toNat (encodeNeed s.srcLen.toNat) with
    | true => exact .inr (.inl ⟨hc, rfl, execEncode_overlap hc ho⟩)
    | false =>
      have ready : s.EncodeReady := ⟨hc, ho⟩
      cases hr : firstInvalid s.plat s.srcAddr.toNat s.srcLen.toNat with
      | some bad => exact .inr (.inr (.inl ⟨ready, bad, rfl, execEncode_unreadable ready hr⟩))
      | none => exact .inr (.inr (.inr ⟨ready, rfl, execEncode_readable ready hr⟩))

theorem execDecode_unreadable {s : State} {bad : Nat}
    (hr : firstInvalid s.plat s.srcAddr.toNat (decodeScan s) = some bad) :
    execDecode true true s = .fault (.emem bad) := by
  simp [execDecode, hr]

section
variable {s : State} (hr : firstInvalid s.plat s.srcAddr.toNat (decodeScan s) = none)
include hr

theorem execDecode_empty (h : decodeLength s = 0) : execDecode true true s = .next (complete .ok 0 s) := by
  simp [execDecode, hr, h]

theorem execDecode_tooShort (h0 : decodeLength s ≠ 0) (h4 : decodeLength s < 4) :
    execDecode true true s = .next (complete .elen 0 s) := by
  simp [execDecode, hr, h0, truncatedLength, Nat.div_eq_of_lt h4]

theorem execDecode_short (h4 : 4 ≤ decodeLength s) (hc : s.dstCap.toNat < expectedLength (decodeText s)) :
    execDecode true true s = .next (complete .ecap 0 s) := by
  have h0 : decodeLength s ≠ 0 := by omega
  have ht : truncatedLength (decodeLength s) ≠ 0 := by rw [truncatedLength]; omega
  simp [execDecode, hr, h0, ht, hc]

theorem execDecode_overlap (h4 : 4 ≤ decodeLength s) (hc : expectedLength (decodeText s) ≤ s.dstCap.toNat)
    (ho : rangesOverlap s.srcAddr.toNat (decodeScan s) s.dstAddr.toNat (expectedLength (decodeText s)) = true) :
    execDecode true true s = .refused .overlap := by
  have h0 : decodeLength s ≠ 0 := by omega
  have ht : truncatedLength (decodeLength s) ≠ 0 := by rw [truncatedLength]; omega
  simp [execDecode, hr, h0, ht, Nat.not_lt.2 hc, ho]

end

theorem execDecode_ready {s : State} (h : s.DecodeReady) :
    execDecode true true s =
      storeAndComplete s.dstAddr.toNat (decodeGroups (decodeText s)) (decodeGroups (decodeText s)).length s := by
  have h0 : decodeLength s ≠ 0 := by have := h.long; omega
  have ht : truncatedLength (decodeLength s) ≠ 0 := by have := h.long; rw [truncatedLength]; omega
  simp [execDecode, h.scanned, h0, ht, Nat.not_lt.2 h.fits, h.disjoint]

/-- The ways of DECODE past its presence check: an unreadable scan, a completion that writes nothing, an overlap, and
the store (43_decode.md R192). -/
theorem execDecode_cases (s : State) :
    (∃ bad, firstInvalid s.plat s.srcAddr.toNat (decodeScan s) = some bad ∧
      execDecode true true s = .fault (.emem bad)) ∨
    ((decodeLength s < 4 ∨ s.dstCap.toNat < expectedLength (decodeText s)) ∧
      ∃ code, execDecode true true s = .next (complete code 0 s)) ∨
    (firstInvalid s.plat s.srcAddr.toNat (decodeScan s) = none ∧ 4 ≤ decodeLength s ∧
      expectedLength (decodeText s) ≤ s.dstCap.toNat ∧
      rangesOverlap s.srcAddr.toNat (decodeScan s) s.dstAddr.toNat (expectedLength (decodeText s)) = true ∧
      execDecode true true s = .refused .overlap) ∨
    (s.DecodeReady ∧ execDecode true true s =
      storeAndComplete s.dstAddr.toNat (decodeGroups (decodeText s)) (decodeGroups (decodeText s)).length s) := by
  cases hr : firstInvalid s.plat s.srcAddr.toNat (decodeScan s) with
  | some bad => exact .inl ⟨bad, rfl, execDecode_unreadable hr⟩
  | none =>
    refine .inr ?_
    rcases Nat.lt_or_ge (decodeLength s) 4 with h4 | h4
    · by_cases h0 : decodeLength s = 0
      · exact .inl ⟨.inl h4, _, execDecode_empty hr h0⟩
      · exact .inl ⟨.inl h4, _, execDecode_tooShort hr h0 h4⟩
    · rcases Nat.lt_or_ge s.dstCap.toNat (expectedLength (decodeText s)) with hc | hc
      · exact .inl ⟨.inr hc, _, execDecode_short hr h4 hc⟩
      · cases ho : rangesOverlap s.srcAddr.toNat (decodeScan s) s.dstAddr.toNat (expectedLength (decodeText s)) with
        | true => exact .inr (.inl ⟨rfl, h4, hc, rfl, execDecode_overlap hr h4 hc ho⟩)
        | false =>
          have ready : s.DecodeReady := ⟨hr, h4, hc, ho⟩
          exact .inr (.inr ⟨ready, execDecode_ready ready⟩)

/-! ### Refusals -/

theorem execEncode_refused {s : State} {r : Refusal} :
    execEncode true true s = .refused r ↔
      r = .overlap ∧ encodeNeed s.srcLen.toNat ≤ s.dstCap.toNat ∧
      rangesOverlap s.srcAddr.toNat s.srcLen.toNat s.dstAddr.toNat (encodeNeed s.srcLen.toNat) = true := by
  constructor
  · intro h
    obtain ⟨-, e⟩ | ⟨hc, ho, e⟩ | ⟨-, bad, -, e⟩ | ⟨-, -, e⟩ := execEncode_cases s <;> rw [e] at h
    · cases h
    · cases h
      exact ⟨rfl, hc, ho⟩
    · cases h
    · exact absurd h storeAndComplete_not_refused
  · rintro ⟨rfl, hc, ho⟩
    exact execEncode_overlap hc ho

theorem execDecode_refused {s : State} {r : Refusal} :
    execDecode true true s = .refused r ↔
      r = .overlap ∧ firstInvalid s.plat s.srcAddr.toNat (decodeScan s) = none ∧ 4 ≤ decodeLength s ∧
      expectedLength (decodeText s) ≤ s.dstCap.toNat ∧
      rangesOverlap s.srcAddr.toNat (decodeScan s) s.dstAddr.toNat (expectedLength (decodeText s)) = true := by
  constructor
  · intro h
    obtain ⟨bad, -, e⟩ | ⟨-, code, e⟩ | ⟨hr, h4, hc, ho, e⟩ | ⟨-, e⟩ := execDecode_cases s <;> rw [e] at h
    · cases h
    · cases h
    · cases h
      exact ⟨rfl, hr, h4, hc, ho⟩
    · exact absurd h storeAndComplete_not_refused
  · rintro ⟨rfl, hr, h4, hc, ho⟩
    exact execDecode_overlap hr h4 hc ho

theorem exec_refused {i : Instr} {s : State} {r : Refusal} (h : exec i s = .refused r) :
    r = .overlap ∧ (i.sp && i.dp) = true := by
  cases hp : i.sp && i.dp with
  | false => rw [exec_absent hp] at h; cases h
  | true =>
    refine ⟨?_, rfl⟩
    obtain rfl | rfl := eq_of_present hp
    · exact (execEncode_refused.1 h).1
    · exact (execDecode_refused.1 h).1

/-- Settles O33: the refusals of both commands are read off their ways out. -/
theorem overlapIsRefused : Obligations.OverlapIsRefused := by
  refine ⟨fun s => ?_, fun s len text hlen htext => ?_, fun i s r h => ?_⟩
  · rw [exec_encode, execEncode_refused, not_apart_iff, encodeNeed_eq]
    simp
  · subst hlen htext
    rw [exec_decode, execDecode_refused, decodeScan_eq_min, expectedLength_decodeText, ← validRange_iff,
      ← not_apart_iff]
    simp only [true_and]
    rfl
  · obtain ⟨hr, hp⟩ := exec_refused h
    exact ⟨hr, Bool.and_eq_true_iff.1 hp⟩

/-! ### Faults -/

/-- An ENCODE that is ready faults where one of its bytes is invalid, the source first (log 9). -/
theorem execEncode_fault {s : State} {f : Fault} :
    execEncode true true s = .fault f ↔
      s.EncodeReady ∧ ∃ bad, f = .emem bad ∧
        (firstInvalid s.plat s.srcAddr.toNat s.srcLen.toNat = some bad ∨
          (firstInvalid s.plat s.srcAddr.toNat s.srcLen.toNat = none ∧
            firstInvalid s.plat s.dstAddr.toNat (encodeNeed s.srcLen.toNat) = some bad)) := by
  rw [← length_encodeOutput]
  constructor
  · intro h
    obtain ⟨-, e⟩ | ⟨-, -, e⟩ | ⟨ready, bad, hr, e⟩ | ⟨ready, hr, e⟩ := execEncode_cases s <;> rw [e] at h
    · cases h
    · cases h
    · cases h
      exact ⟨ready, bad, rfl, .inl hr⟩
    · obtain ⟨bad, hw, rfl⟩ := storeAndComplete_fault.1 h
      exact ⟨ready, bad, rfl, .inr ⟨hr, hw⟩⟩
  · rintro ⟨ready, bad, rfl, hr | ⟨hr, hw⟩⟩
    · exact execEncode_unreadable ready hr
    · rw [execEncode_readable ready hr]
      exact storeAndComplete_fault.2 ⟨bad, hw, rfl⟩

/-- A DECODE faults at an invalid scanned byte, or, past its checks, at an invalid byte that it would write. -/
theorem execDecode_fault {s : State} {f : Fault} :
    execDecode true true s = .fault f ↔
      ∃ bad, f = .emem bad ∧
        (firstInvalid s.plat s.srcAddr.toNat (decodeScan s) = some bad ∨
          (s.DecodeReady ∧ firstInvalid s.plat s.dstAddr.toNat (decodeGroups (decodeText s)).length = some bad)) := by
  constructor
  · intro h
    obtain ⟨bad, hr, e⟩ | ⟨-, code, e⟩ | ⟨-, -, -, -, e⟩ | ⟨ready, e⟩ := execDecode_cases s <;> rw [e] at h
    · cases h
      exact ⟨bad, rfl, .inl hr⟩
    · cases h
    · cases h
    · obtain ⟨bad, hw, rfl⟩ := storeAndComplete_fault.1 h
      exact ⟨bad, rfl, .inr ⟨ready, hw⟩⟩
  · rintro ⟨bad, rfl, hr | ⟨ready, hw⟩⟩
    · exact execDecode_unreadable hr
    · rw [execDecode_ready ready]
      exact storeAndComplete_fault.2 ⟨bad, hw, rfl⟩

theorem Platform.not_valid {p : Platform} {a : Nat} (h : p.valid a = false) : 2 ^ p.aw ≤ a ∨ p.admits a = false := by
  rw [Platform.valid, Bool.and_eq_false_iff, decide_eq_false_iff_not, Nat.not_lt] at h
  exact h

/-- A fault names an invalid address in one of the two buffers that the registers describe. -/
theorem exec_fault {i : Instr} {s : State} {f : Fault} (h : exec i s = .fault f) :
    ∃ a n bad, f = .emem bad ∧ firstInvalid s.plat a n = some bad ∧
      ((a = s.srcAddr.toNat ∧ n ≤ s.srcLen.toNat) ∨ (a = s.dstAddr.toNat ∧ n ≤ s.dstCap.toNat)) := by
  cases hp : i.sp && i.dp with
  | false => rw [exec_absent hp] at h; cases h
  | true =>
    obtain rfl | rfl := eq_of_present hp
    · obtain ⟨ready, bad, rfl, hr | ⟨-, hw⟩⟩ := execEncode_fault.1 h
      · exact ⟨_, _, bad, rfl, hr, .inl ⟨rfl, le_rfl⟩⟩
      · exact ⟨_, _, bad, rfl, hw, .inr ⟨rfl, ready.fits⟩⟩
    · obtain ⟨bad, rfl, hr | ⟨ready, hw⟩⟩ := execDecode_fault.1 h
      · exact ⟨_, _, bad, rfl, hr, .inl ⟨rfl, by rw [decodeScan_eq_min]; exact Nat.min_le_left ..⟩⟩
      · exact ⟨_, _, bad, rfl, hw, .inr ⟨rfl, (length_decodeGroups_decodeText_le s).trans ready.fits⟩⟩

/-- Settles O34: an invalid range has a first invalid address, and each command faults at the first it meets. -/
theorem invalidAddressFaults : Obligations.InvalidAddressFaults := by
  refine ⟨fun s hfit hapart hbad => ?_, fun s hbad => ?_,
    fun s len text hlen h4 htext hfit hscan hapart hbad => ?_, fun i s f h => ?_⟩
  · have ready : s.EncodeReady := ⟨hfit, (apart_iff ..).1 hapart⟩
    by_cases hr : validRange s.plat s.srcAddr.toNat s.srcLen.toNat
    · obtain ⟨bad, hw⟩ := exists_firstInvalid fun hw => hbad ⟨hr, hw⟩
      exact ⟨bad, execEncode_fault.2 ⟨ready, bad, rfl, .inr ⟨(validRange_iff ..).1 hr, hw⟩⟩⟩
    · obtain ⟨bad, hr⟩ := exists_firstInvalid hr
      exact ⟨bad, execEncode_fault.2 ⟨ready, bad, rfl, .inl hr⟩⟩
  · obtain ⟨bad, hr⟩ := exists_firstInvalid hbad
    exact ⟨bad, execDecode_unreadable (by rw [decodeScan_eq_min]; exact hr)⟩
  · subst hlen htext
    have ready : s.DecodeReady := by
      constructor
      · rw [decodeScan_eq_min, ← validRange_iff]; exact hscan
      · exact h4
      · rw [expectedLength_decodeText]; exact hfit
      · rw [decodeScan_eq_min, expectedLength_decodeText, ← apart_iff]; exact hapart
    obtain ⟨bad, hw⟩ := exists_firstInvalid hbad
    obtain ⟨-, hle, hlt, -⟩ := firstInvalid_eq_some hw
    exact ⟨bad, execDecode_fault.2 ⟨bad, rfl, .inr ⟨ready, hw⟩⟩, hle, hlt⟩
  · obtain ⟨a, n, bad, rfl, hbad, hbuf⟩ := exec_fault h
    obtain ⟨hinv, hle, hlt, -⟩ := firstInvalid_eq_some hbad
    refine ⟨bad, rfl, Platform.not_valid hinv, ?_⟩
    rcases hbuf with ⟨rfl, hn⟩ | ⟨rfl, hn⟩
    · exact .inl ⟨hle, by omega⟩
    · exact .inr ⟨hle, by omega⟩

end Sys2Proof.Machine
end

section
/-! Host accesses to buffer memory (20_memory.md R58, 30_encoding.md R81), and what each side sees of it after a publish,
an acquire or a settle (20_memory.md R61, R62; log 14). -/

namespace Sys2Proof.Machine

/-! ### What the host sees -/

/-- The memory the host reads where no write of its own is pending: memory itself, or its copy of it (R62). -/
def State.hostView (s : State) : Memory :=
  match s.plat.ordering.toHost with
  | .atOnce => s.mem
  | .onFence => s.hostMem

theorem hostByte_eq (s : State) (a : Nat) : s.hostByte a = (s.unseen.byteFor a).getD (s.hostView.byteAt a) := by
  unfold State.hostByte State.hostView
  cases s.unseen.byteFor a with
  | some v => rfl
  | none => cases s.plat.ordering.toHost <;> rfl

/-- A change made to memory and to the host's copy alike is what the host sees. -/
theorem hostView_update (s : State) (f : Memory → Memory) (u : Cells) :
    State.hostView { s with mem := f s.mem, unseen := u, hostMem := s.hostCopy (f s.hostMem) } = f s.hostView := by
  unfold State.hostView State.hostCopy
  cases s.plat.ordering.toHost <;> rfl

theorem hostView_hostAcquire (s : State) : (hostAcquire s).hostView = s.mem := by
  simp only [State.hostView, hostAcquire_plat, hostAcquire_mem, hostAcquire_hostMem, State.hostCopy]
  cases s.plat.ordering.toHost <;> rfl

/-- A byte settled towards the host shows memory's own; where writes are visible at once it did so before. -/
theorem byteAt_hostView_settle (s : State) (a x : Nat) :
    (State.hostView { s with hostMem := s.hostCopy (s.hostMem.write a (s.mem.byteAt a)) }).byteAt x =
      if x = a then s.mem.byteAt a else s.hostView.byteAt x := by
  unfold State.hostView State.hostCopy
  cases s.plat.ordering.toHost with
  | atOnce =>
    by_cases hx : x = a
    · simp [hx]
    · simp [hx]
  | onFence => simp

/-- The bytes the host reads are the one list of that length that holds what it sees, byte by byte. -/
theorem hostBytes_eq {s : State} {a n : Nat} {l : List Byte} (hl : l.length = n)
    (h : ∀ i, i < n → l[i]? = some (s.hostByte (a + i))) : s.hostBytes a n = l := by
  refine List.ext_getElem? fun i => ?_
  by_cases hi : i < n
  · rw [getElem?_hostBytes _ _ _ _ hi, h i hi]
  · rw [List.getElem?_eq_none (by simpa [length_hostBytes] using hi), List.getElem?_eq_none (by omega)]

theorem hostBytes_congr {s t : State} {a n : Nat} (h : ∀ i, i < n → t.hostByte (a + i) = s.hostByte (a + i)) :
    t.hostBytes a n = s.hostBytes a n :=
  hostBytes_eq (length_hostBytes s a n) fun i hi => by rw [getElem?_hostBytes _ _ _ _ hi, h i hi]

theorem hostBytes_eq_bytesAt {s : State} {m : Memory} (h : ∀ a, s.hostByte a = m.byteAt a) (a n : Nat) :
    s.hostBytes a n = m.bytesAt a n :=
  hostBytes_eq (Memory.length_bytesAt m a n) fun i hi => by rw [Memory.getElem?_bytesAt _ _ _ _ hi, h]

/-- With both directions visible at once the host sees memory itself. -/
theorem hostByte_of_atOnce {s : State} (h : s.Inv) (ho : s.plat.ordering = { toEngine := .atOnce, toHost := .atOnce })
    (a : Nat) : s.hostByte a = s.mem.byteAt a := by
  have hu : s.unseen = [] := h.unseenOnlyOnFence (by rw [ho])
  simp [hostByte_eq, State.hostView, hu, ho, Cells.byteFor]

/-! ### Host buffer accesses -/

theorem hostBufRead_free {s : State} {a n : Nat}
    (h : ∀ i, i < n → s.plat.valid (a + i) = true ∧ s.inUse (a + i) = false) :
    hostBufRead a n s = .next { s with bufData := s.hostBytes a n } := by
  rw [hostBufRead, (hostRefusal_eq_none s a n).2 h]

theorem hostBufWrite_free {s : State} {a : Nat} {bs : List Byte}
    (h : ∀ i, i < bs.length → s.plat.valid (a + i) = true ∧ s.inUse (a + i) = false) :
    hostBufWrite a bs s = .next (s.hostStore a bs) := by
  rw [hostBufWrite, (hostRefusal_eq_none s a bs.length).2 h]

theorem hostStore_atOnce {s : State} (h : s.plat.ordering.toEngine = .atOnce) (a : Nat) (bs : List Byte) :
    s.hostStore a bs = { s with mem := s.mem.store a bs, hostMem := s.hostCopy (s.hostMem.store a bs) } := by
  rw [State.hostStore, h]

theorem hostStore_onFence {s : State} (h : s.plat.ordering.toEngine = .onFence) (a : Nat) (bs : List Byte) :
    s.hostStore a bs = { s with unseen := s.unseen.assignBytes a bs } := by
  rw [State.hostStore, h]

/-- A host write moves memory, the pending writes and the host's copy of memory only. -/
theorem hostStore_frame (s : State) (a : Nat) (bs : List Byte) :
    s.hostStore a bs = { s with mem := (s.hostStore a bs).mem, unseen := (s.hostStore a bs).unseen,
                                hostMem := (s.hostStore a bs).hostMem } := by
  unfold State.hostStore
  cases s.plat.ordering.toEngine <;> rfl

/-- The host reads back what it wrote, whole. -/
theorem hostBytes_hostStore {s : State} (h : s.plat.ordering.toEngine = .atOnce → s.unseen = []) (a : Nat)
    (bs : List Byte) : (s.hostStore a bs).hostBytes a bs.length = bs :=
  hostBytes_eq rfl fun i hi => by
    rw [hostByte_hostStore h, if_pos (by omega)]
    simp [List.getD, List.getElem?_eq_getElem hi]

/-- A host write makes the host see its bytes and no other change; it goes to memory, or to the pending writes. -/
theorem hostBufWrite_effect {s : State} (hu : s.plat.ordering.toEngine = .atOnce → s.unseen = []) {a : Nat}
    {bs : List Byte} (h : ∀ i, i < bs.length → s.plat.valid (a + i) = true ∧ s.inUse (a + i) = false) :
    ∃ t, hostBufWrite a bs s = .next t ∧ t.hostBytes a bs.length = bs ∧
      (∀ x, x < a ∨ a + bs.length ≤ x → t.hostByte x = s.hostByte x) ∧
      (s.plat.ordering.toEngine = .atOnce →
        t.mem.bytesAt a bs.length = bs ∧ sameOutside s.mem t.mem a bs.length ∧ t.unseen = s.unseen) ∧
      (s.plat.ordering.toEngine = .onFence → t.mem = s.mem ∧ t.hostMem = s.hostMem) ∧
      t = { s with mem := t.mem, unseen := t.unseen, hostMem := t.hostMem } := by
  refine ⟨_, hostBufWrite_free h, hostBytes_hostStore hu a bs, fun x hx => ?_, fun ho => ?_, fun ho => ?_,
    hostStore_frame s a bs⟩
  · rw [hostByte_hostStore hu, if_neg (by omega)]
  · rw [hostStore_atOnce ho]
    exact ⟨Memory.bytesAt_store s.mem a bs, fun x hx => Memory.byteAt_store_outside hx, rfl⟩
  · rw [hostStore_onFence ho]
    exact ⟨rfl, rfl⟩

/-- Settles O50: an access to free bytes goes through, at the state with its event taken off. -/
theorem hostBufferAccesses : Obligations.HostBufferAccesses := by
  intro s rest a hinv
  refine ⟨fun n hfree hin => ?_, fun bs hfree hin => ?_⟩
  · have hbytes : State.hostBytes { s with inputs := rest } a n = s.hostBytes a n := hostBytes_congr fun _ _ => rfl
    have hstep : step s = .next { s with inputs := rest, bufData := s.hostBytes a n } := by
      rw [step_cons hin, ← hbytes]
      exact hostBufRead_free (s := { s with inputs := rest }) hfree
    refine ⟨hstep, fun ho => ?_⟩
    rw [hstep, hostBytes_eq_bytesAt (hostByte_of_atOnce hinv ho)]
  · rw [step_cons hin]
    exact hostBufWrite_effect (s := { s with inputs := rest }) hinv.unseenOnlyOnFence hfree

/-! ### Publish, acquire and settle -/

theorem hostPublish_free {s : State} (h : ∀ c ∈ s.unseen, s.inUse c.1 = false) :
    hostPublish s = .next { s with mem := s.mem.writeCells s.unseen, unseen := [],
                                   hostMem := s.hostCopy (s.hostMem.writeCells s.unseen) } := by
  rw [hostPublish, (firstInUse_eq_none s s.unseen).2 h]

theorem settleByte_pending {s : State} {a : Nat} {v : Byte} (hv : s.unseen.byteFor a = some v)
    (hu : s.inUse a = false) :
    settleByte a s = .next { s with mem := s.mem.write a v, unseen := Memory.remove s.unseen a,
                                    hostMem := s.hostCopy (s.hostMem.write a v) } := by
  simp [settleByte, hv, hu]

theorem settleByte_none {s : State} {a : Nat} (hv : s.unseen.byteFor a = none) :
    settleByte a s = .next { s with hostMem := s.hostCopy (s.hostMem.write a (s.mem.byteAt a)) } := by
  simp [settleByte, hv]

/-- A publish puts every pending write into memory, and the host sees what it saw (R61 (a)). -/
theorem hostPublish_effect {s : State} (h : ∀ c ∈ s.unseen, s.inUse c.1 = false) :
    ∃ t, hostPublish s = .next t ∧ t.unseen = [] ∧ (∀ a, t.hostByte a = s.hostByte a) ∧
      (∀ a, t.mem.byteAt a = (s.unseen.byteFor a).getD (s.mem.byteAt a)) ∧
      t = { s with mem := t.mem, unseen := [], hostMem := t.hostMem } := by
  refine ⟨_, hostPublish_free h, rfl, fun a => ?_, Memory.byteAt_writeCells s.mem s.unseen, rfl⟩
  rw [hostByte_eq, hostByte_eq, hostView_update s fun m => m.writeCells s.unseen, Memory.byteAt_writeCells]
  rfl

/-- A settle makes its byte one on both sides, the host's write where one is pending, and moves no other byte. -/
theorem settleByte_effect {s : State} {a : Nat} (h : s.unseen.byteFor a ≠ none → s.inUse a = false) :
    ∃ t, settleByte a s = .next t ∧ t.mem.byteAt a = (s.unseen.byteFor a).getD (s.mem.byteAt a) ∧
      t.hostByte a = t.mem.byteAt a ∧
      (∀ x, x ≠ a → t.mem.byteAt x = s.mem.byteAt x ∧ t.hostByte x = s.hostByte x) ∧
      t = { s with mem := t.mem, unseen := t.unseen, hostMem := t.hostMem } := by
  cases hv : s.unseen.byteFor a with
  | some v =>
    refine ⟨_, settleByte_pending hv (h (by simp [hv])), by simp, ?_, fun x hx => ⟨by simp [hx], ?_⟩, rfl⟩
    · rw [hostByte_eq, hostView_update s fun m => m.write a v]
      simp [Cells.byteFor_remove]
    · rw [hostByte_eq, hostByte_eq, hostView_update s fun m => m.write a v]
      simp [Cells.byteFor_remove, hx]
  | none =>
    refine ⟨_, settleByte_none hv, rfl, ?_, fun x hx => ⟨rfl, ?_⟩, rfl⟩
    · rw [hostByte_eq, byteAt_hostView_settle]
      simp [hv]
    · rw [hostByte_eq, hostByte_eq, byteAt_hostView_settle, if_neg hx]

/-- Settles O60: each event's effect, at the state with that event taken off. -/
theorem hostOrderingMakesWritesVisible : Obligations.HostOrderingMakesWritesVisible := by
  intro s rest hinv
  refine ⟨hostByte_of_atOnce hinv, fun hin hfree => ?_, fun hin => ?_, fun a hin hfree => ?_⟩
  · rw [step_cons hin]
    exact hostPublish_effect (s := { s with inputs := rest }) hfree
  · refine ⟨_, step_cons hin, fun a => ?_, rfl⟩
    rw [hostByte_eq, hostView_hostAcquire]
    rfl
  · rw [step_cons hin]
    exact settleByte_effect (s := { s with inputs := rest }) hfree

end Sys2Proof.Machine
end

section
/-! A host access to free bytes, or a publish, and the engine step commute (20_memory.md R61): the command looks at the
bytes of its read set and moves those of its write set, and the host can reach neither (70_reset_and_hazards.md R245). -/

namespace Sys2Proof.Machine

/-! ### The engine step is local -/

/-- `t` holds all that the command in flight at `s` looks at: the platform, CMD, the argument registers, and the bytes of
its read set (42_encode.md R150, 43_decode.md R191). -/
structure State.SameReads (t s : State) : Prop where
  plat : t.plat = s.plat
  cmd : t.cmd = s.cmd
  srcAddr : t.srcAddr = s.srcAddr
  srcLen : t.srcLen = s.srcLen
  dstAddr : t.dstAddr = s.dstAddr
  dstCap : t.dstCap = s.dstCap
  reads : ∀ a, (footprint s).reads a = true → s.mem.byteAt a = t.mem.byteAt a

/-- How a command ends: bytes stored from DST_ADDR up, and the completion (40_command_interface.md R106). -/
def State.finish (s : State) (code : ErrCode) (n : Nat) (bs : List Byte) : State :=
  complete code n { s with mem := s.mem.store s.dstAddr.toNat bs }

theorem Footprint.reads_iff (f : Footprint) (x : Nat) :
    f.reads x = true ↔ f.readBase ≤ x ∧ x < f.readBase + f.readLen := by
  simp [Footprint.reads]

section
variable {s t : State} (h : t.SameReads s)
include h

/-- An ENCODE past its checks reads its whole source, so its output is the same at both states. -/
theorem State.SameReads.encodeOutput_eq (hc : decodeCmd s.cmd = .ok (.encode true true))
    (hfit : encodeNeed s.srcLen.toNat ≤ s.dstCap.toNat) : encodeOutput t = encodeOutput s := by
  rw [encodeOutput, encodeOutput, encodeRaw, encodeRaw, h.srcAddr, h.srcLen]
  congr 2
  refine Memory.bytesAt_congr fun i hi => (h.reads _ ?_).symm
  rw [Footprint.reads_iff, footprint_encode hc]
  simp [encodeFootprint, hfit, hi]

/-- A DECODE scans the same bytes at both states. -/
theorem State.SameReads.scanned (hc : decodeCmd s.cmd = .ok (.decode true true)) :
    ∀ i, i < decodeScan s → s.mem.byteAt (s.srcAddr.toNat + i) = t.mem.byteAt (s.srcAddr.toNat + i) := by
  intro i hi
  refine h.reads _ ?_
  rw [Footprint.reads_iff, footprint_decode hc]
  simp [decodeFootprint, hi]

theorem State.SameReads.decodeScan_eq (hc : decodeCmd s.cmd = .ok (.decode true true)) : decodeScan t = decodeScan s := by
  rw [decodeScan, decodeScan, h.srcAddr, h.srcLen, (effectiveLength_congr (h.scanned hc)).2]

theorem State.SameReads.decodeLength_eq (hc : decodeCmd s.cmd = .ok (.decode true true)) :
    decodeLength t = decodeLength s := by
  rw [decodeLength, decodeLength, h.srcAddr, h.srcLen, (effectiveLength_congr (h.scanned hc)).1]

theorem State.SameReads.decodeText_eq (hc : decodeCmd s.cmd = .ok (.decode true true)) : decodeText t = decodeText s := by
  rw [decodeText, decodeText, h.decodeLength_eq hc, h.srcAddr]
  refine Memory.bytesAt_congr fun i hi => (h.scanned hc i ?_).symm
  have := decodeLength_le_scan s
  rw [truncatedLength] at hi
  omega

theorem execEncode_local {u : State} (hc : decodeCmd s.cmd = .ok (.encode true true))
    (hs : execEncode true true s = .next u) :
    ∃ code n bs, u = s.finish code n bs ∧ execEncode true true t = .next (t.finish code n bs) ∧
      bs.length ≤ encodeNeed s.srcLen.toNat := by
  obtain ⟨hp, -⟩ | ⟨-, hcap, rfl⟩ | ⟨-, hfit, hov, hr, hw, rfl⟩ := execEncode_next hs
  · cases hp
  · exact ⟨.ecap, 0, [], rfl, execEncode_short (by rwa [h.srcLen, h.dstCap]), Nat.zero_le _⟩
  · refine ⟨.ok, _, _, rfl, ?_, (length_encodeOutput s).le⟩
    have ready : t.EncodeReady :=
      ⟨by rwa [h.srcLen, h.dstCap], by rwa [h.srcAddr, h.srcLen, h.dstAddr]⟩
    rw [execEncode_readable ready (by rwa [h.plat, h.srcAddr, h.srcLen]), h.encodeOutput_eq hc hfit, h.srcLen]
    exact storeAndComplete_next.2 ⟨by rwa [h.plat, h.dstAddr], rfl⟩

theorem execDecode_local {u : State} (hc : decodeCmd s.cmd = .ok (.decode true true))
    (hs : execDecode true true s = .next u) :
    ∃ code n bs, u = s.finish code n bs ∧ execDecode true true t = .next (t.finish code n bs) ∧
      bs.length ≤ expectedLength (decodeText s) := by
  have hscan := h.decodeScan_eq hc
  have hlen := h.decodeLength_eq hc
  have htext := h.decodeText_eq hc
  obtain ⟨hp, -⟩ | ⟨-, hr, hout⟩ := execDecode_next hs
  · cases hp
  · have hr' : firstInvalid t.plat t.srcAddr.toNat (decodeScan t) = none := by
      rwa [h.plat, h.srcAddr, hscan]
    obtain ⟨h0, rfl⟩ | ⟨h0, h4, rfl⟩ | ⟨h4, hcap, rfl⟩ | ⟨h4, hfit, hov, hw, rfl⟩ := hout
    · exact ⟨.ok, 0, [], rfl, execDecode_empty hr' (by rwa [hlen]), Nat.zero_le _⟩
    · exact ⟨.elen, 0, [], rfl, execDecode_tooShort hr' (by rwa [hlen]) (by rwa [hlen]), Nat.zero_le _⟩
    · exact ⟨.ecap, 0, [], rfl, execDecode_short hr' (by rwa [hlen]) (by rwa [htext, h.dstCap]), Nat.zero_le _⟩
    · refine ⟨.ok, _, _, rfl, ?_, length_decodeGroups_decodeText_le s⟩
      have ready : t.DecodeReady :=
        ⟨hr', by rwa [hlen], by rwa [htext, h.dstCap], by rwa [h.srcAddr, hscan, h.dstAddr, htext]⟩
      rw [execDecode_ready ready, htext]
      exact storeAndComplete_next.2 ⟨by rwa [h.plat, h.dstAddr], rfl⟩

/-- An engine step that completes does so alike wherever the bytes it reads are the same, and stores its bytes in the
write set of the command. -/
theorem perform_local {u : State} (hs : perform s = .next u) :
    ∃ code n bs, u = s.finish code n bs ∧ perform t = .next (t.finish code n bs) ∧
      ∀ x, s.dstAddr.toNat ≤ x → x < s.dstAddr.toNat + bs.length → (footprint s).writes x = true := by
  unfold perform at hs ⊢
  rw [h.cmd]
  cases hc : decodeCmd s.cmd with
  | error e =>
    rw [hc] at hs
    cases hs
    exact ⟨.ecmd, 0, [], rfl, rfl, fun x h1 h2 => by simp at h2; omega⟩
  | ok i =>
    rw [hc] at hs
    cases hp : i.sp && i.dp with
    | false =>
      simp only [exec_absent hp] at hs ⊢
      cases hs
      exact ⟨.earg, 0, [], rfl, rfl, fun x h1 h2 => by simp at h2; omega⟩
    | true =>
      obtain rfl | rfl := eq_of_present hp
      · obtain ⟨code, n, bs, hu, ht, hlen⟩ := execEncode_local h hc hs
        refine ⟨code, n, bs, hu, ht, fun x h1 h2 => ?_⟩
        rw [Footprint.writes_iff, footprint_encode hc]
        exact ⟨h1, Nat.lt_of_lt_of_le h2 (Nat.add_le_add_left hlen _)⟩
      · obtain ⟨code, n, bs, hu, ht, hlen⟩ := execDecode_local h hc hs
        refine ⟨code, n, bs, hu, ht, fun x h1 h2 => ?_⟩
        rw [Footprint.writes_iff, footprint_decode hc]
        exact ⟨h1, Nat.lt_of_lt_of_le h2 (Nat.add_le_add_left hlen _)⟩

end

/-! ### What the host's accesses leave alone -/

/-- A host access that goes through lies outside the closed buffers (R245). -/
theorem outside_of_inUse {s : State} {a n x : Nat} (h : hostRefusal s a n = none) (hx : s.inUse x = true) :
    x < a ∨ a + n ≤ x := by
  rw [hostRefusal_eq_none] at h
  by_contra hc
  have := (h (x - a) (by omega)).2
  rw [Nat.add_sub_cancel' (by omega), hx] at this
  cases this

/-- The registers, the launch parameters, the closed buffers and every byte in them are as they were. -/
structure State.LeavesClosed (s t : State) : Prop where
  registers : s.SameRegisters t
  plat : t.plat = s.plat
  windows : t.windows = s.windows
  closed : ∀ x, s.inUse x = true → t.mem.byteAt x = s.mem.byteAt x

theorem hostBufRead_leavesClosed {s t : State} {a n : Nat} (h : hostBufRead a n s = .next t) : s.LeavesClosed t := by
  obtain ⟨-, rfl⟩ := hostBufRead_next h
  exact ⟨{ State.SameRegisters.refl s with }, rfl, rfl, fun _ _ => rfl⟩

theorem hostBufWrite_leavesClosed {s t : State} {a : Nat} {bs : List Byte} (h : hostBufWrite a bs s = .next t) :
    s.LeavesClosed t := by
  obtain ⟨hr, rfl⟩ := hostBufWrite_next h
  refine ⟨sameRegisters_hostStore s a bs, hostStore_plat s a bs, hostStore_windows s a bs, fun x hx => ?_⟩
  have := outside_of_inUse hr hx
  rw [byteAt_hostStore, if_neg (by omega)]

theorem hostPublish_leavesClosed {s t : State} (h : hostPublish s = .next t) : s.LeavesClosed t := by
  obtain ⟨hfree, rfl⟩ := hostPublish_next h
  refine ⟨{ State.SameRegisters.refl s with }, rfl, rfl, fun x hx => ?_⟩
  rw [Memory.byteAt_writeCells]
  cases hb : s.unseen.byteFor x with
  | none => rfl
  | some v => exact absurd (hx.symm.trans (hfree _ (Cells.mem_of_byteFor hb))) nofun

theorem inUse_of_mem {s : State} {f : Footprint} (h : f ∈ s.windows) {x : Nat} (hx : f.touches x = true) :
    s.inUse x = true :=
  List.any_eq_true.2 ⟨f, h, hx⟩

/-- A command whose buffers are closed finds what it looks at as it was before the access. -/
theorem State.LeavesClosed.sameReads {s t : State} (h : s.LeavesClosed t) (hw : footprint t ∈ t.windows) :
    s.SameReads t where
  plat := h.plat.symm
  cmd := h.registers.cmd.symm
  srcAddr := h.registers.srcAddr.symm
  srcLen := h.registers.srcLen.symm
  dstAddr := h.registers.dstAddr.symm
  dstCap := h.registers.dstCap.symm
  reads := fun x hx => h.closed x (inUse_of_mem (h.windows ▸ hw) (by simp [Footprint.touches, hx]))

/-! ### What the host does to free bytes after the command ends -/

/-- Stores to ranges that are apart can change places (R58). -/
theorem Memory.store_comm {m : Memory} (hm : m.wf = true) {a b : Nat} {as bs : List Byte}
    (h : ∀ x, a ≤ x → x < a + as.length → x < b ∨ b + bs.length ≤ x) :
    (m.store a as).store b bs = (m.store b bs).store a as := by
  refine Memory.ext_of_wf (Memory.wf_store b bs (Memory.wf_store a as hm))
    (Memory.wf_store a as (Memory.wf_store b bs hm)) fun x => ?_
  simp only [Memory.byteAt_store]
  by_cases ha : a ≤ x ∧ x < a + as.length
  · rw [if_pos ha, if_pos ha, if_neg (by have := h x ha.1 ha.2; omega)]
  · rw [if_neg ha, if_neg ha]

/-- A store and a write of listed cells can change places where no cell lies in the store's range. -/
theorem Memory.writeCells_store_comm {m : Memory} (hm : m.wf = true) {l : Cells} {a : Nat} {bs : List Byte}
    (h : ∀ c ∈ l, c.1 < a ∨ a + bs.length ≤ c.1) :
    (m.store a bs).writeCells l = (m.writeCells l).store a bs := by
  refine Memory.ext_of_wf (Memory.wf_writeCells l (Memory.wf_store a bs hm))
    (Memory.wf_store a bs (Memory.wf_writeCells l hm)) fun x => ?_
  simp only [Memory.byteAt_store, Memory.byteAt_writeCells]
  by_cases hx : a ≤ x ∧ x < a + bs.length
  · cases hb : l.byteFor x with
    | none => rfl
    | some v => have := h _ (Cells.mem_of_byteFor hb); simp only at this; omega
  · simp only [if_neg hx]

/-- The bytes a command stores do not show where it stores none. -/
theorem hostByte_finish {s : State} {code : ErrCode} {n x : Nat} {bs : List Byte}
    (h : x < s.dstAddr.toNat ∨ s.dstAddr.toNat + bs.length ≤ x) : (s.finish code n bs).hostByte x = s.hostByte x := by
  rw [hostByte_eq, hostByte_eq]
  congr 1
  simp only [State.hostView, State.finish, complete_plat, complete_mem, complete_hostMem]
  cases s.plat.ordering.toHost with
  | atOnce => exact Memory.byteAt_store_outside h
  | onFence => rfl

section
variable {s : State} {code : ErrCode} {n : Nat} {bs : List Byte}
  (hclosed : ∀ x, s.dstAddr.toNat ≤ x → x < s.dstAddr.toNat + bs.length → s.inUse x = true)
include hclosed

/-- A byte that is free for the host lies outside what the command in flight stores. -/
theorem outside_of_free {x : Nat} (h : s.inUse x = false) :
    x < s.dstAddr.toNat ∨ s.dstAddr.toNat + bs.length ≤ x := by
  by_contra hc
  exact absurd ((hclosed x (by omega) (by omega)).symm.trans h) nofun

theorem hostBufRead_finish {a k : Nat} {s1 : State} (h : hostBufRead a k s = .next s1) :
    hostBufRead a k (s.finish code n bs) = .next (s1.finish code n bs) := by
  obtain ⟨hr, rfl⟩ := hostBufRead_next h
  rw [hostRefusal_eq_none] at hr
  have hbytes : (s.finish code n bs).hostBytes a k = s.hostBytes a k :=
    hostBytes_congr fun i hi => hostByte_finish (outside_of_free hclosed (hr i hi).2)
  rw [hostBufRead_free (s := s.finish code n bs) hr, hbytes]
  rfl

theorem hostBufWrite_finish (hm : s.mem.wf = true) {a : Nat} {ds : List Byte} {s1 : State}
    (h : hostBufWrite a ds s = .next s1) :
    hostBufWrite a ds (s.finish code n bs) = .next (s1.finish code n bs) := by
  obtain ⟨hr, rfl⟩ := hostBufWrite_next h
  rw [hostBufWrite_free (s := s.finish code n bs) ((hostRefusal_eq_none s a ds.length).1 hr)]
  have hcomm : (s.mem.store s.dstAddr.toNat bs).store a ds = (s.mem.store a ds).store s.dstAddr.toNat bs :=
    Memory.store_comm hm fun x h1 h2 => outside_of_inUse hr (hclosed x h1 h2)
  cases ho : s.plat.ordering.toEngine with
  | atOnce =>
    rw [hostStore_atOnce ho, hostStore_atOnce (s := s.finish code n bs) ho]
    simp only [State.finish, complete_mem, hcomm]
    rfl
  | onFence =>
    rw [hostStore_onFence ho, hostStore_onFence (s := s.finish code n bs) ho]
    rfl

theorem hostPublish_finish (hm : s.mem.wf = true) {s1 : State} (h : hostPublish s = .next s1) :
    hostPublish (s.finish code n bs) = .next (s1.finish code n bs) := by
  obtain ⟨hfree, rfl⟩ := hostPublish_next h
  have hcomm : (s.mem.store s.dstAddr.toNat bs).writeCells s.unseen =
      (s.mem.writeCells s.unseen).store s.dstAddr.toNat bs :=
    Memory.writeCells_store_comm hm fun c hc => outside_of_free hclosed (hfree c hc)
  rw [hostPublish_free (s := s.finish code n bs) hfree]
  simp only [State.finish, complete_mem, complete_unseen, hcomm]
  rfl

end

/-- Settles O51: the engine step ends alike before the access as after it, and the access does to what the command leaves
what it did to the state before. -/
theorem hostAccessCommutesWithEngineStep : Obligations.HostAccessCommutesWithEngineStep := by
  intro s s1 s2 e hinv hbusy he h1 h2
  have hleaves : s.LeavesClosed s1 := by
    obtain ⟨a, n, rfl⟩ | ⟨a, bs, rfl⟩ | rfl := he
    · exact hostBufRead_leavesClosed h1
    · exact hostBufWrite_leavesClosed h1
    · exact hostPublish_leavesClosed h1
  have hw : footprint s1 ∈ s1.windows :=
    (runEvent_keeps_inv hinv h1).inFlightGuarded (hleaves.registers.busy.trans hbusy)
  obtain ⟨code, n, bs, rfl, hs, hwrites⟩ := perform_local (hleaves.sameReads hw) h2
  have hclosed : ∀ x, s.dstAddr.toNat ≤ x → x < s.dstAddr.toNat + bs.length → s.inUse x = true := by
    intro x hle hlt
    rw [← hleaves.registers.dstAddr] at hle hlt
    exact inUse_of_mem (hleaves.windows ▸ hw) (by simp [Footprint.touches, hwrites x hle hlt])
  refine ⟨_, hs, ?_⟩
  obtain ⟨a, n, rfl⟩ | ⟨a, ds, rfl⟩ | rfl := he
  · exact hostBufRead_finish hclosed h1
  · exact hostBufWrite_finish hclosed hinv.memWf h1
  · exact hostPublish_finish hclosed hinv.memWf h1

end Sys2Proof.Machine
end

section
/-! Command words (30_encoding.md R71, R73, R74): the fields as numbers, a word as its fields, and CmdDecode read off
them. -/

namespace Sys2Proof

/-! ### The fields of a word -/

@[simp] theorem toNat_opField (w : Word) : (opField w).toNat = w.toNat % 16 := by
  simp [opField, BitVec.extractLsb'_toNat]

@[simp] theorem toNat_reservedLow (w : Word) : (reservedLow w).toNat = w.toNat / 16 % 16 := by
  simp [reservedLow, BitVec.extractLsb'_toNat, Nat.shiftRight_eq_div_pow]

@[simp] theorem toNat_reservedHigh (w : Word) : (reservedHigh w).toNat = w.toNat / 1024 := by
  have hw : w.toNat / 1024 < 4194304 := by have := w.isLt; omega
  simp [reservedHigh, BitVec.extractLsb'_toNat, Nat.shiftRight_eq_div_pow, Nat.mod_eq_of_lt hw]

theorem spField_eq (w : Word) : spField w = (w.toNat / 256 % 2 == 1) := by
  rw [spField, ← BitVec.testBit_toNat, Nat.testBit_eq_decide_div_mod_eq]
  rfl

theorem dpField_eq (w : Word) : dpField w = (w.toNat / 512 % 2 == 1) := by
  rw [dpField, ← BitVec.testBit_toNat, Nat.testBit_eq_decide_div_mod_eq]
  rfl

/-- The five fields of R71 cover all 32 bits. -/
theorem word_ext_fields {w w' : Word} (hhigh : reservedHigh w = reservedHigh w') (hdp : dpField w = dpField w')
    (hsp : spField w = spField w') (hlow : reservedLow w = reservedLow w') (hop : opField w = opField w') : w = w' := by
  simp only [← BitVec.toNat_inj, toNat_reservedHigh, toNat_reservedLow, toNat_opField] at hhigh hlow hop
  rw [spField_eq, spField_eq, Bool.eq_iff_iff, beq_iff_eq, beq_iff_eq] at hsp
  rw [dpField_eq, dpField_eq, Bool.eq_iff_iff, beq_iff_eq, beq_iff_eq] at hdp
  exact BitVec.eq_of_toNat_eq (by omega)

theorem fields_encodeCmd (i : Instr) : Laws.EncodedWord.Statement i := by
  cases i with
  | encode sp dp => exact Laws.EncodedWord.encode sp dp
  | decode sp dp => exact Laws.EncodedWord.decode sp dp

/-! ### CmdDecode -/

theorem decodeCmd_reservedBits {w : Word} (h : reservedHigh w ≠ 0#22 ∨ reservedLow w ≠ 0#4) :
    decodeCmd w = .error .reservedBits := if_pos h

section
variable {w : Word} (hhigh : reservedHigh w = 0#22) (hlow : reservedLow w = 0#4)
include hhigh hlow

theorem decodeCmd_encode (hop : opField w = 0x1#4) : decodeCmd w = .ok (.encode (spField w) (dpField w)) := by
  simp [decodeCmd, hhigh, hlow, hop]

theorem decodeCmd_decode (hop : opField w = 0x2#4) : decodeCmd w = .ok (.decode (spField w) (dpField w)) := by
  simp [decodeCmd, hhigh, hlow, hop]

theorem decodeCmd_reservedOp (h1 : opField w ≠ 0x1#4) (h2 : opField w ≠ 0x2#4) :
    decodeCmd w = .error .reservedOp := by
  simp [decodeCmd, hhigh, hlow, h1, h2]

end

/-- A word decodes to a command just when its fields are those of R71 for that command. -/
theorem decodeCmd_eq_ok {w : Word} {i : Instr} :
    decodeCmd w = .ok i ↔
      reservedHigh w = 0#22 ∧ reservedLow w = 0#4 ∧ opField w = i.op ∧ spField w = i.sp ∧ dpField w = i.dp := by
  constructor
  · intro h
    unfold decodeCmd at h
    split_ifs at h with hres h1 h2
    · cases h
      exact ⟨by tauto, by tauto, h1, rfl, rfl⟩
    · cases h
      exact ⟨by tauto, by tauto, h2, rfl, rfl⟩
  · rintro ⟨hhigh, hlow, hop, hsp, hdp⟩
    cases i with
    | encode sp dp => rw [decodeCmd_encode hhigh hlow hop, hsp, hdp]; rfl
    | decode sp dp => rw [decodeCmd_decode hhigh hlow hop, hsp, hdp]; rfl

theorem decodeCmd_encodeCmd (i : Instr) : decodeCmd (encodeCmd i) = .ok i :=
  decodeCmd_eq_ok.2 (fields_encodeCmd i).2

/-- Settles O3: the fields of a command's word decode to the command, and a word that decodes to it has the same
fields. -/
theorem commandWordRoundTrip : Obligations.CommandWordRoundTrip := by
  refine ⟨fun i _ => decodeCmd_encodeCmd i, fun w i h => ?_⟩
  obtain ⟨hhigh, hlow, hop, hsp, hdp⟩ := decodeCmd_eq_ok.1 h
  obtain ⟨-, ehigh, elow, eop, esp, edp⟩ := fields_encodeCmd i
  exact word_ext_fields (ehigh.trans hhigh.symm) (edp.trans hdp.symm) (esp.trans hsp.symm)
    (elow.trans hlow.symm) (eop.trans hop.symm)

/-- Settles O2: the equations of CmdDecode, their conditions on the fields read as numbers. -/
theorem decodingIsTotalByFields : Obligations.DecodingIsTotalByFields := by
  intro w
  have hhigh : reservedHigh w = 0#22 ↔ w.toNat / 1024 = 0 := by simp [← BitVec.toNat_inj]
  have hlow : reservedLow w = 0#4 ↔ w.toNat / 16 % 16 = 0 := by simp [← BitVec.toNat_inj]
  have h1 : opField w = 0x1#4 ↔ w.toNat % 16 = 1 := by simp [← BitVec.toNat_inj]
  have h2 : opField w = 0x2#4 ↔ w.toNat % 16 = 2 := by simp [← BitVec.toNat_inj]
  simp only [ne_eq, ← spField_eq, ← dpField_eq, ← hhigh, ← hlow, ← h1, ← h2]
  exact ⟨decodeCmd_reservedBits, fun hh hl =>
    ⟨decodeCmd_encode hh hl, decodeCmd_decode hh hl, decodeCmd_reservedOp hh hl⟩⟩

/-- Settles O1: closed words, evaluated. -/
theorem commandWordsDecode : Obligations.CommandWordsDecode := by
  unfold Obligations.CommandWordsDecode
  decide

end Sys2Proof
end

section
/-! The group packer on the bits of its bytes (30_encoding.md R78, 42_encode.md R140 to R142), and STATUS and RESULT
after a completion (30_encoding.md R75, R76). -/

namespace Sys2Proof.Machine

/-! ### The window and its slices -/

theorem toNat_encWindow (b0 b1 b2 : Byte) :
    (encWindow b0 b1 b2).toNat = b0.toNat * 2 ^ 16 + b1.toNat * 2 ^ 8 + b2.toNat := by
  rw [encWindow, BitVec.toNat_append, BitVec.toNat_append, ← Nat.shiftLeft_add_eq_or_of_lt b1.isLt,
    ← Nat.shiftLeft_add_eq_or_of_lt b2.isLt]
  simp only [Nat.shiftLeft_eq]
  omega

theorem slice0_encWindow (b0 b1 b2 : Byte) : slice0 (encWindow b0 b1 b2) = b0.extractLsb' 2 6 :=
  calc (b0 ++ b1 ++ b2 : BitVec (8 + 8 + 8)).extractLsb' 18 6
    _ = (b0 ++ b1).extractLsb' 10 6 := BitVec.extractLsb'_append_eq_of_le (by decide)
    _ = b0.extractLsb' 2 6 := BitVec.extractLsb'_append_eq_of_le (by decide)

theorem slice1_encWindow (b0 b1 b2 : Byte) :
    slice1 (encWindow b0 b1 b2) = (b0.extractLsb' 0 2 ++ b1.extractLsb' 4 4 : BitVec (2 + 4)) :=
  calc (b0 ++ b1 ++ b2 : BitVec (8 + 8 + 8)).extractLsb' 12 6
    _ = (b0 ++ b1).extractLsb' 4 6 := BitVec.extractLsb'_append_eq_of_le (by decide)
    _ = (b0.extractLsb' 0 2 ++ b1.extractLsb' 4 4 : BitVec (2 + 4)) := BitVec.extractLsb'_append_eq_ite

theorem slice2_encWindow (b0 b1 b2 : Byte) :
    slice2 (encWindow b0 b1 b2) = (b1.extractLsb' 0 4 ++ b2.extractLsb' 6 2 : BitVec (4 + 2)) :=
  calc (b0 ++ b1 ++ b2 : BitVec (8 + 8 + 8)).extractLsb' 6 6
    _ = ((b0 ++ b1).extractLsb' 0 4 ++ b2.extractLsb' 6 2 : BitVec (4 + 2)) := BitVec.extractLsb'_append_eq_ite
    _ = (b1.extractLsb' 0 4 ++ b2.extractLsb' 6 2 : BitVec (4 + 2)) := by
      rw [BitVec.extractLsb'_append_eq_of_add_le (xhi := b0) (xlo := b1) (by decide)]

theorem slice3_encWindow (b0 b1 b2 : Byte) : slice3 (encWindow b0 b1 b2) = b2.extractLsb' 0 6 :=
  BitVec.extractLsb'_append_eq_of_add_le (xhi := b0 ++ b1) (by decide)

/-- Settles O9: each character is ALPHA of a slice of the window, and an absent byte gives zero bits. -/
theorem encoderGroupFromByteBits : Obligations.EncoderGroupFromByteBits := by
  refine ⟨toNat_encWindow, fun b0 b1 b2 => ?_, fun b0 b1 => ?_, fun b0 => ?_⟩
  · simp only [encGroup3, slice0_encWindow, slice1_encWindow, slice2_encWindow, slice3_encWindow]
  · simp only [encGroup2, slice0_encWindow, slice1_encWindow, slice2_encWindow]
    rfl
  · simp only [encGroup1, slice0_encWindow, slice1_encWindow]
    rfl

/-! ### A completion as the host reads it -/

/-- With OVR clear, STATUS after a completion is ERR in [7:4], DONE, and nothing else. -/
theorem statusWord_complete {s : State} (h : s.ovr = false) (code : ErrCode) (n : Nat) :
    statusWord (complete code n s) = (code.bits ++ 0x2#4 : BitVec (4 + 4)).setWidth 32 := by
  simp only [statusWord, complete_err, complete_ovr, complete_done, complete_busy, h]
  cases code <;> rfl

/-- Settles O35: STATUS is ERR and DONE, RESULT the count or 2^32 minus the code. -/
theorem completionReportsCode : Obligations.CompletionReportsCode := by
  intro s n h
  simp only [statusWord_complete h, complete_result]
  exact ⟨⟨rfl, rfl⟩, ⟨rfl, rfl⟩, ⟨rfl, rfl⟩, ⟨rfl, rfl⟩, ⟨rfl, rfl⟩, ⟨rfl, rfl⟩⟩

end Sys2Proof.Machine
end

section
/-! The pseudo-instructions of 30_encoding.md R82: what a command does not look at, the register accesses of the host
program as steps, and the whole program. -/

namespace Sys2Proof.Machine

/-! ### A command looks at neither the events to come nor the answer to the last register read -/

/-- The state with other events to come and another answer to the host's last register read: all that the reads of a
POLL change before the engine step. -/
def State.withHostSide (es : List Event) (d : Option Word) (s : State) : State := { s with inputs := es, rdData := d }

/-- A change of the next state; a fault or a refusal stays what it is. -/
def mapNext (f : State → State) : Host.Outcome State Fault Refusal → Host.Outcome State Fault Refusal
  | .next t => .next (f t)
  | .fault e => .fault e
  | .refused r => .refused r

section
variable (es : List Event) (d : Option Word) (s : State)

theorem sameInputs_withHostSide : (s.withHostSide es d).SameInputs s := ⟨rfl, rfl, rfl, rfl, rfl, rfl⟩

theorem storeAndComplete_withHostSide (a : Nat) (bs : List Byte) (n : Nat) :
    storeAndComplete a bs n (s.withHostSide es d) = mapNext (.withHostSide es d) (storeAndComplete a bs n s) := by
  unfold storeAndComplete
  rw [(sameInputs_withHostSide es d s).plat]
  cases firstInvalid s.plat a bs.length <;> rfl

theorem execEncode_withHostSide (sp dp : Bool) :
    execEncode sp dp (s.withHostSide es d) = mapNext (.withHostSide es d) (execEncode sp dp s) := by
  have hi := sameInputs_withHostSide es d s
  unfold execEncode
  simp only [hi.plat, hi.srcAddr, hi.srcLen, hi.dstAddr, hi.dstCap, encodeOutput_congr hi]
  split_ifs
  · rfl
  · rfl
  · rfl
  · cases firstInvalid s.plat s.srcAddr.toNat s.srcLen.toNat with
    | none => exact storeAndComplete_withHostSide es d s _ _ _
    | some bad => rfl

theorem execDecode_withHostSide (sp dp : Bool) :
    execDecode sp dp (s.withHostSide es d) = mapNext (.withHostSide es d) (execDecode sp dp s) := by
  have hi := sameInputs_withHostSide es d s
  unfold execDecode
  simp only [hi.plat, hi.srcAddr, hi.dstAddr, hi.dstCap, decodeScan_congr hi, decodeLength_congr hi,
    decodeText_congr hi]
  split
  · rfl
  · cases firstInvalid s.plat s.srcAddr.toNat (decodeScan s) with
    | some bad => rfl
    | none =>
      simp only
      split_ifs
      · rfl
      · rfl
      · rfl
      · rfl
      · exact storeAndComplete_withHostSide es d s _ _ _

theorem exec_withHostSide (i : Instr) :
    exec i (s.withHostSide es d) = mapNext (.withHostSide es d) (exec i s) := by
  cases i with
  | encode sp dp => exact execEncode_withHostSide es d s sp dp
  | decode sp dp => exact execDecode_withHostSide es d s sp dp

end

theorem perform_eq_exec {s : State} {i : Instr} (h : decodeCmd s.cmd = .ok i) : perform s = exec i s := by
  simp [perform, h]

/-! ### Runs, and the steps of the host program (R81) -/

theorem run_next {s t : State} (k : Nat) (h : step s = .next t) :
    Sys2Proof.core.run (k + 1) s = Sys2Proof.core.run k t := by
  have h : Sys2Proof.core.step s = .next t := h
  simp only [Host.Core.run, h]

theorem run_fault {s : State} {f : Fault} (k : Nat) (h : step s = .fault f) :
    Sys2Proof.core.run (k + 1) s = .fault f := by
  have h : Sys2Proof.core.step s = .fault f := h
  simp only [Host.Core.run, h]

theorem run_refused {s : State} {r : Refusal} (k : Nat) (h : step s = .refused r) :
    Sys2Proof.core.run (k + 1) s = .refused r := by
  have h : Sys2Proof.core.step s = .refused r := h
  simp only [Host.Core.run, h]

/-- `WR` while idle (R101). -/
theorem step_wr {s : State} {r : Reg} {v : Word} {rest : List Event} (hidle : s.busy = false)
    (h : s.inputs = Event.wr s.plat r v :: rest) : step s = .next (writeIdle r v { s with inputs := rest }) := by
  rw [step_cons h]
  refine (hostRegWrite_offset r v { s with inputs := rest }).trans ?_
  simp [writeReg, hidle]

/-- `RD` (R100). -/
theorem step_rd {s : State} {r : Reg} {rest : List Event} (h : s.inputs = Event.rd s.plat r :: rest) :
    step s = .next (readReg r { s with inputs := rest }) :=
  (step_cons h).trans (hostRegRead_offset r { s with inputs := rest })

/-- The state with other events to come and the given argument registers. -/
def State.withArguments (es : List Event) (src len dst cap : Word) (s : State) : State :=
  { s with inputs := es, srcAddr := src, srcLen := len, dstAddr := dst, dstCap := cap }

/-- The argument writes and the CMD write of R82 put the command in flight. -/
theorem run_issue {s : State} {src len dst cap w : Word} {es : List Event} (k : Nat) (hidle : s.busy = false)
    (hin : s.inputs = [Event.wr s.plat .srcAddr src, Event.wr s.plat .srcLen len, Event.wr s.plat .dstAddr dst,
      Event.wr s.plat .dstCap cap, Event.wr s.plat .cmd w] ++ es) :
    Sys2Proof.core.run (k + 5) s = Sys2Proof.core.run k
      (issue w (s.withArguments es (addressValue s.plat src) len (addressValue s.plat dst) cap)) := by
  have hwr (j : Nat) (r : Reg) (v : Word) (es : List Event) (a l d c : Word) :
      Sys2Proof.core.run (j + 1) (s.withArguments (Event.wr s.plat r v :: es) a l d c) =
        Sys2Proof.core.run j (writeIdle r v (s.withArguments es a l d c)) :=
    run_next j (step_wr (s := s.withArguments _ a l d c) hidle rfl)
  calc Sys2Proof.core.run (k + 5) s
    _ = Sys2Proof.core.run (k + 5) (s.withArguments s.inputs s.srcAddr s.srcLen s.dstAddr s.dstCap) := rfl
    _ = Sys2Proof.core.run (k + 4) (s.withArguments _ (addressValue s.plat src) s.srcLen s.dstAddr s.dstCap) :=
      hin ▸ hwr (k + 4) .srcAddr src _ _ _ _ _
    _ = Sys2Proof.core.run (k + 3) (s.withArguments _ (addressValue s.plat src) len s.dstAddr s.dstCap) :=
      hwr (k + 3) .srcLen len _ _ _ _ _
    _ = Sys2Proof.core.run (k + 2) (s.withArguments _ (addressValue s.plat src) len (addressValue s.plat dst) s.dstCap) :=
      hwr (k + 2) .dstAddr dst _ _ _ _ _
    _ = Sys2Proof.core.run (k + 1) (s.withArguments _ (addressValue s.plat src) len (addressValue s.plat dst) cap) :=
      hwr (k + 1) .dstCap cap _ _ _ _ _
    _ = Sys2Proof.core.run k
          (issue w (s.withArguments es (addressValue s.plat src) len (addressValue s.plat dst) cap)) :=
      hwr k .cmd w es _ _ _ _

/-- A read of STATUS that returns DONE = 0 leaves nothing but its answer (R100, R108). -/
theorem step_earlyRead {s : State} (hdone : s.done = false) (es : List Event) (d : Option Word) :
    step (s.withHostSide (Event.rd s.plat .status :: es) d) = .next (s.withHostSide es (some (statusWord s))) := by
  rw [step_rd (rest := es) rfl]
  simp [readReg, hdone, State.withHostSide, regValue, statusWord]

theorem run_earlyReads {s : State} (hdone : s.done = false) (k n : Nat) (es : List Event) (d : Option Word) :
    ∃ d', Sys2Proof.core.run (n + k) (s.withHostSide (List.replicate n (Event.rd s.plat .status) ++ es) d) =
      Sys2Proof.core.run k (s.withHostSide es d') := by
  induction n generalizing d with
  | zero => exact ⟨d, by rw [Nat.zero_add]; rfl⟩
  | succ n ih =>
    obtain ⟨d', hd'⟩ := ih (some (statusWord s))
    rw [Nat.succ_add]
    exact ⟨d', (run_next (n + k) (step_earlyRead hdone _ d)).trans hd'⟩

/-- The engine event with a command in flight (40_command_interface.md R107). -/
theorem step_engine {s : State} {i : Instr} (hbusy : s.busy = true) (hc : decodeCmd s.cmd = .ok i) (es : List Event)
    (d : Option Word) : step (s.withHostSide (.engine :: es) d) = mapNext (.withHostSide es d) (exec i s) := by
  rw [step_cons (rest := es) rfl, ← exec_withHostSide]
  have hbusy : (s.withHostSide es d).busy = true := hbusy
  exact (if_pos hbusy).trans (perform_eq_exec hc)

/-- The read of STATUS that returns DONE = 1 gives the buffers back (R108, 70_reset_and_hazards.md R245). -/
theorem step_lastRead {s : State} {p : Platform} {rest : List Event} (hdone : s.done = true) (hplat : s.plat = p)
    (hrest : s.inputs = rest) (d : Option Word) :
    step (s.withHostSide (Event.rd p .status :: rest) d) =
      .next { s with rdData := some (statusWord s), windows := [] } := by
  subst hplat hrest
  rw [step_rd (rest := s.inputs) rfl]
  simp [readReg, hdone, State.withHostSide, regValue, statusWord]

/-- The program up to the engine event: it leads to the issued state `a`, with another answer to the host's last
register read. -/
theorem run_commandEvents {s a : State} {i : Instr} {src len dst cap : Word} {early : Nat} {rest : List Event}
    (k : Nat) (hidle : s.busy = false) (hin : s.inputs = commandEvents s.plat i src len dst cap early ++ rest)
    (ha : a = issue (encodeCmd i) (s.withArguments rest (addressValue s.plat src) len (addressValue s.plat dst) cap)) :
    ∃ d, Sys2Proof.core.run (early + k + 5) s =
      Sys2Proof.core.run k (a.withHostSide (.engine :: Event.rd a.plat .status :: rest) d) := by
  have hdone : a.done = false := by rw [ha, issue_done]
  have hplat : a.plat = s.plat := by rw [ha]; rfl
  rw [commandEvents, pollEvents, List.append_assoc, List.append_assoc] at hin
  obtain ⟨d, hd⟩ := run_earlyReads hdone k early (.engine :: Event.rd a.plat .status :: rest) s.rdData
  refine ⟨d, (run_issue (early + k) hidle hin).trans (Eq.trans ?_ hd)⟩
  rw [hplat, ha]
  rfl

/-- Settles O58: the writes and the early reads lead to the issued state but for the host's side, and the engine step ends
there as it does at the issued state. -/
theorem pseudoInstructionRunsCommand : Obligations.PseudoInstructionRunsCommand := by
  intro s a i src len dst cap early rest hidle hin ha
  have hbusy : a.busy = true := by rw [ha, issue_busy]
  have hcmd : decodeCmd a.cmd = .ok i := by rw [ha, issue_cmd, decodeCmd_encodeCmd]
  have hinputs : a.inputs = rest := by rw [ha, issue_inputs]
  obtain ⟨d, hrun⟩ := run_commandEvents 2 hidle hin ha
  have hengine := step_engine hbusy hcmd (Event.rd a.plat .status :: rest) d
  refine ⟨fun u hu => ?_, fun f hf => ?_, fun r hr => ?_⟩
  · rw [hu] at hengine
    obtain ⟨code, n, bs, -, hend⟩ := perform_next ((perform_eq_exec hcmd).trans hu)
    have hlast := step_lastRead (s := u) (p := a.plat) (rest := rest) (by rw [hend, complete_done])
      (by rw [hend, complete_plat]) (by rw [hend, complete_inputs, hinputs]) d
    exact hrun.trans ((run_next 1 hengine).trans (run_next 0 hlast))
  · rw [hf] at hengine
    exact hrun.trans (run_fault 1 hengine)
  · rw [hr] at hengine
    exact hrun.trans (run_refused 1 hengine)

end Sys2Proof.Machine
end

section
/-! The register accesses of the host over the bus (40_command_interface.md R100 to R109): the offsets, the STATUS word
as a number, and what a read and a write at each offset answer. -/

namespace Sys2Proof.Machine

/-! ### Offsets (10_state.md R21, 20_memory.md R55, R59) -/

theorem Reg.offset_inj {r r' : Reg} : r.offset = r'.offset ↔ r = r' := by
  refine ⟨fun h => ?_, congrArg _⟩
  have h := congrArg Reg.ofOffset h
  rw [Reg.ofOffset_offset, Reg.ofOffset_offset] at h
  exact Option.some.inj h

theorem Reg.offset_aligned (r : Reg) : r.offset % 4 = 0 := by cases r <;> rfl

theorem BusWidth.bytes_pos (w : BusWidth) : 0 < w.bytes := by cases w <;> decide

/-- From REG_BASE up it is the first byte of an access that decides whether the access reaches the block. -/
theorem reachesBlock_add (p : Platform) (off : Nat) (w : BusWidth) :
    reachesBlock p (p.regBase + off) w = decide (off < 0x20) := by
  have hw := w.bytes_pos
  rw [Bool.eq_iff_iff, reachesBlock, rangesOverlap_eq_true, Config.regSpan, decide_eq_true_eq]
  constructor
  · rintro ⟨x, h1, -, -, h4⟩
    omega
  · intro h
    exact ⟨p.regBase + off, by omega, by omega, by omega, by omega⟩

theorem busReg_eq_none {off : Nat} {w : BusWidth} (h : w ≠ .w32 ∨ off % 4 ≠ 0) (p : Platform) :
    busReg p (p.regBase + off) w = none := by
  rw [Option.eq_none_iff_forall_ne_some]
  intro r hr
  obtain ⟨hw, hoff⟩ := busReg_eq_some hr
  have := r.offset_aligned
  rcases h with h | h
  · exact h hw
  · omega

/-! ### Accesses that name no register (40_command_interface.md R109) -/

section
variable {off : Nat} {w : BusWidth}

theorem hostRegRead_refused (hoff : off < 0x20) (h : w ≠ .w32 ∨ off % 4 ≠ 0) (s : State) :
    hostRegRead (s.plat.regBase + off) w s = .refused .registerAccess := by
  simp [hostRegRead, reachesBlock_add, hoff, busReg_eq_none h]

theorem hostRegWrite_refused (hoff : off < 0x20) (h : w ≠ .w32 ∨ off % 4 ≠ 0) (v : Word) (s : State) :
    hostRegWrite (s.plat.regBase + off) w v s = .refused .registerAccess := by
  simp [hostRegWrite, reachesBlock_add, hoff, busReg_eq_none h]

theorem hostRegRead_outside (hoff : 0x20 ≤ off) (s : State) :
    hostRegRead (s.plat.regBase + off) w s = .next { s with rdData := none } := by
  simp [hostRegRead, reachesBlock_add, Nat.not_lt.2 hoff]

theorem hostRegWrite_outside (hoff : 0x20 ≤ off) (v : Word) (s : State) :
    hostRegWrite (s.plat.regBase + off) w v s = .next s := by
  simp [hostRegWrite, reachesBlock_add, Nat.not_lt.2 hoff]

end

/-- Settles O41: the first byte decides whether the access reaches the block, width and alignment whether it names a
register there. -/
theorem otherRegisterAccesses : Obligations.OtherRegisterAccesses := by
  intro s rest off w v
  refine ⟨fun hoff h => ⟨fun hin => ?_, fun hin => ?_⟩, fun hoff => ⟨fun hin => ?_, fun hin => ?_⟩⟩
  · exact (step_cons hin).trans (hostRegRead_refused hoff h { s with inputs := rest })
  · exact (step_cons hin).trans (hostRegWrite_refused hoff h v { s with inputs := rest })
  · exact (step_cons hin).trans (hostRegRead_outside hoff { s with inputs := rest })
  · exact (step_cons hin).trans (hostRegWrite_outside hoff v { s with inputs := rest })

/-! ### Reads (R100) -/

theorem toNat_append_eq_add {m n : Nat} (x : BitVec m) (y : BitVec n) :
    (x ++ y).toNat = x.toNat * 2 ^ n + y.toNat := by
  rw [BitVec.toNat_append, ← Nat.shiftLeft_add_eq_or_of_lt y.isLt, Nat.shiftLeft_eq]

/-- The fields of STATUS as 30_encoding.md R75 places them. -/
theorem toNat_statusWord (s : State) :
    (statusWord s).toNat = s.busy.toNat + 2 * s.done.toNat + 4 * s.ovr.toNat + 16 * s.err.toNat := by
  rw [statusWord, BitVec.toNat_setWidth_of_le (by decide)]
  simp only [toNat_append_eq_add, BitVec.toNat_ofBool, BitVec.toNat_ofNat]
  omega

/-- The events to come are no part of a register. -/
theorem regValue_withInputs (r : Reg) (s : State) (es : List Event) :
    regValue r { s with inputs := es } = regValue r s := by
  cases r <;> rfl

/-- A read changes nothing but the host's record of the answer and, at STATUS, the closed buffers (R108). -/
theorem step_rd_value {s : State} {r : Reg} {rest : List Event} (h : s.inputs = Event.rd s.plat r :: rest) :
    step s = .next { s with inputs := rest, rdData := some (BitVec.ofNat 32 (regValue r s).toNat),
                            windows := if r.offset = 0x04 ∧ s.done = true then [] else s.windows } := by
  have hstatus : r.offset = 0x04 ↔ r = .status := Reg.offset_inj (r' := .status)
  simp [step_rd h, readReg, regValue_withInputs, hstatus]

/-- Settles O36: each pair of an offset and a value is a register's. -/
theorem registerReadAnswers : Obligations.RegisterReadAnswers := by
  refine ⟨fun s rest off v hmem hin => ?_, fun s rest off w hoff h hin => ?_⟩
  · obtain ⟨r, rfl, rfl⟩ : ∃ r : Reg, off = r.offset ∧ v = (regValue r s).toNat := by
      simp only [List.mem_cons, List.not_mem_nil, or_false, Prod.mk.injEq] at hmem
      obtain h | ⟨hoff, hv⟩ | h | h | h | h | h | h := hmem
      · exact ⟨.cmd, h⟩
      · exact ⟨.status, hoff, hv.trans (toNat_statusWord s).symm⟩
      · exact ⟨.srcAddr, h⟩
      · exact ⟨.srcLen, h⟩
      · exact ⟨.dstAddr, h⟩
      · exact ⟨.dstCap, h⟩
      · exact ⟨.result, h⟩
      · exact ⟨.reserved, h⟩
    exact step_rd_value hin
  · exact (step_cons hin).trans (hostRegRead_refused hoff h { s with inputs := rest })

/-! ### Writes (R101 to R104) -/

/-- WR of a register, busy or idle. -/
theorem step_writeReg {s : State} {r : Reg} {v : Word} {rest : List Event}
    (h : s.inputs = Event.wr s.plat r v :: rest) : step s = .next (writeReg r v { s with inputs := rest }) :=
  (step_cons h).trans (hostRegWrite_offset r v { s with inputs := rest })

/-- WR while busy (R102). -/
theorem step_wr_busy {s : State} {r : Reg} {v : Word} {rest : List Event} (hbusy : s.busy = true)
    (h : s.inputs = Event.wr s.plat r v :: rest) : step s = .next (writeBusy r v { s with inputs := rest }) := by
  rw [step_writeReg h]
  simp [writeReg, hbusy]

theorem writeReg_status (v : Word) (s : State) : writeReg .status v s = statusWrite v s := ite_self _

/-- Settles O37: the offset is that of a register, and the write is what R101 says of it. -/
theorem registerWriteWhileIdle : Obligations.RegisterWriteWhileIdle := by
  intro s rest off v hidle hin
  have hwr (r : Reg) (hoff : off = r.offset) : step s = .next (writeIdle r v { s with inputs := rest }) := by
    subst hoff
    exact step_wr hidle hin
  exact ⟨hwr .cmd, hwr .status, hwr .srcAddr, hwr .srcLen, hwr .dstAddr, hwr .dstCap,
    fun h => h.elim (hwr .result) (hwr .reserved)⟩

/-- Settles O38: CMD stands at REG_BASE itself, and the next state is the issued one. -/
theorem commandWriteIssues : Obligations.CommandWriteIssues := by
  intro s rest v hidle hin
  exact ⟨issue v { s with inputs := rest }, step_wr (r := .cmd) hidle hin, by simp⟩

/-- Settles O39: the offset is that of a register, and the write is what R102 says of it. -/
theorem registerWriteWhileBusy : Obligations.RegisterWriteWhileBusy := by
  intro s rest off v hbusy hin
  have hwr (r : Reg) (hoff : off = r.offset) : step s = .next (writeBusy r v { s with inputs := rest }) := by
    subst hoff
    exact step_wr_busy hbusy hin
  simp only [List.mem_cons, List.not_mem_nil, or_false]
  refine ⟨?_, hwr .status, ?_⟩
  · rintro (h | h | h | h | h)
    · exact hwr .cmd h
    · exact hwr .srcAddr h
    · exact hwr .srcLen h
    · exact hwr .dstAddr h
    · exact hwr .dstCap h
  · rintro (h | h)
    · exact hwr .result h
    · exact hwr .reserved h

/-- A 1 at bit i of the written value clears the flag (R103). -/
theorem and_not_getLsbD (b : Bool) (v : Word) (i : Nat) :
    (b && !v.getLsbD i) = if v.toNat / 2 ^ i % 2 = 1 then false else b := by
  rw [← BitVec.testBit_toNat, Nat.testBit_eq_decide_div_mod_eq]
  split_ifs with h <;> simp [h]

/-- StatusWrite with its bits read off the number. -/
theorem statusWrite_eq (v : Word) (s : State) :
    statusWrite v s = { s with done := if v.toNat / 2 % 2 = 1 then false else s.done,
                               ovr := if v.toNat / 4 % 2 = 1 then false else s.ovr } := by
  simp only [statusWrite, and_not_getLsbD, Nat.reducePow]

/-- Settles O40: a write of STATUS is StatusWrite whether busy or not. -/
theorem statusWriteClears : Obligations.StatusWriteClears := by
  intro s rest v hin
  rw [step_writeReg (r := .status) hin, writeReg_status, statusWrite_eq]

end Sys2Proof.Machine
end

section
/-! The engine step of 40_command_interface.md R105 and R107: which command it runs, and that a run through all the
events and one step more leaves none in flight. -/

namespace Sys2Proof.Machine

/-! ### The command the engine's turn runs -/

theorem engineTurn_eq_exec {s : State} {i : Instr} (hbusy : s.busy = true) (hc : decodeCmd s.cmd = .ok i) :
    engineTurn s = exec i s :=
  (if_pos hbusy).trans (perform_eq_exec hc)

theorem decodeCmd_of_tableWord {n w : Nat} {i : Instr} (h : decodeTableWord n w = some i) :
    decodeCmd (BitVec.ofNat 32 (w % 2 ^ n)) = .ok i := by
  unfold decodeTableWord at h
  split at h
  · split at h
    · cases h
      assumption
    · cases h
  · cases h

/-- Settles O4: in each case the turn is the engine's, with a command in flight that CMD decodes to; the placed word is
the issued one. -/
theorem stepRunsDecodedCommand : Obligations.StepRunsDecodedCommand := by
  refine ⟨fun s i hbusy hc => ⟨fun hin => ?_, fun rest hin => ?_⟩, fun s w i h => ?_⟩
  · exact (step_nil hin).trans (engineTurn_eq_exec hbusy hc)
  · exact (step_cons hin).trans (engineTurn_eq_exec (s := { s with inputs := rest }) hbusy hc)
  · have hplaced : (s.withFetchWord 32 w).inputs = .engine :: s.inputs := placeCommand_inputs _ s
    exact (step_cons hplaced).trans (engineTurn_eq_exec (issue_busy _ s) (decodeCmd_of_tableWord h))

/-! ### A run past the events -/

/-- R105: the engine step completes the command in flight, whatever the command. -/
theorem engineTurn_leaves_idle {s t : State} (h : engineTurn s = .next t) : t.busy = false := by
  obtain ⟨-, hp⟩ | ⟨hidle, rfl⟩ := engineTurn_next h
  · obtain ⟨code, n, bs, -, rfl⟩ := perform_next hp
    exact complete_busy code n _
  · exact hidle

theorem engineTurn_keeps_inputs {s t : State} (h : engineTurn s = .next t) : t.inputs = s.inputs := by
  obtain ⟨-, hp⟩ | ⟨-, rfl⟩ := engineTurn_next h
  · obtain ⟨code, n, bs, -, rfl⟩ := perform_next hp
    exact complete_inputs code n _
  · rfl

@[simp] theorem writeReg_inputs (r : Reg) (v : Word) (s : State) : (writeReg r v s).inputs = s.inputs := by
  obtain ⟨-, -, h⟩ | ⟨-, h⟩ | ⟨-, h⟩ | ⟨-, -, h⟩ | ⟨-, -, h⟩ | ⟨-, -, h⟩ | ⟨-, -, h⟩ | h := writeReg_cases r v s <;>
    simp only [h, issue_inputs, statusWrite_inputs, overrun_inputs]

/-- No event adds events or drops any that are to come after it. -/
theorem runEvent_keeps_inputs {e : Event} {s t : State} (h : runEvent e s = .next t) : t.inputs = s.inputs := by
  obtain ⟨a, w, -, h⟩ | ⟨a, w, v, -, h⟩ | ⟨a, n, -, h⟩ | ⟨a, bs, -, h⟩ | ⟨-, h⟩ | ⟨-, rfl⟩ | ⟨a, -, h⟩ |
    ⟨-, h⟩ | ⟨-, rfl⟩ := runEvent_next h
  · obtain ⟨r, -, rfl⟩ | ⟨-, rfl⟩ := hostRegRead_next h <;> rfl
  · obtain ⟨r, -, rfl⟩ | ⟨-, rfl⟩ := hostRegWrite_next h
    · exact writeReg_inputs r v s
    · rfl
  · obtain ⟨-, rfl⟩ := hostBufRead_next h
    rfl
  · obtain ⟨-, rfl⟩ := hostBufWrite_next h
    exact hostStore_inputs s a bs
  · obtain ⟨-, rfl⟩ := hostPublish_next h
    rfl
  · exact hostAcquire_inputs s
  · obtain ⟨v, -, -, rfl⟩ | ⟨-, rfl⟩ := settleByte_next h <;> rfl
  · exact engineTurn_keeps_inputs h
  · exact resetEvent_inputs s

/-- A run that goes on after its first step goes on from a next state. -/
theorem run_succ_next {s t : State} {k : Nat} (h : Sys2Proof.core.run (k + 1) s = .next t) :
    ∃ u, step s = .next u ∧ Sys2Proof.core.run k u = .next t := by
  cases hs : step s with
  | next u => exact ⟨u, rfl, (run_next k hs).symm.trans h⟩
  | fault f => exact nomatch (run_fault k hs).symm.trans h
  | refused r => exact nomatch (run_refused k hs).symm.trans h

/-- Each step takes one event off the list, and the last step is the engine's turn. -/
theorem run_past_inputs {es : List Event} {s t : State} (hin : s.inputs = es)
    (h : Sys2Proof.core.run (es.length + 1) s = .next t) : t.busy = false ∧ t.inputs = [] := by
  induction es generalizing s with
  | nil =>
    obtain ⟨u, hstep, hrun⟩ := run_succ_next h
    cases hrun
    rw [step_nil hin] at hstep
    exact ⟨engineTurn_leaves_idle hstep, (engineTurn_keeps_inputs hstep).trans hin⟩
  | cons e rest ih =>
    obtain ⟨u, hstep, hrun⟩ := run_succ_next h
    rw [step_cons hin] at hstep
    exact ih (runEvent_keeps_inputs hstep) hrun

/-- Settles O47, by induction on the events to come. -/
theorem commandInFlightIsPerformed : Obligations.CommandInFlightIsPerformed :=
  fun _ _ => run_past_inputs rfl

end Sys2Proof.Machine
end

section
/-! The two ROMs as inverses of each other (41_alphabet_lut.md R120 to R124), and the characters of an encoded text
(R126). -/

namespace Sys2Proof.Machine

/-! ### ALPHA and DLUT -/

/-- The codes of R121 as numbers: none of the sums leaves a byte. -/
theorem toNat_alpha (s : Slice) :
    (alpha s).toNat =
      if s.toNat ≤ 25 then 0x41 + s.toNat
      else if s.toNat ≤ 51 then 0x47 + s.toNat
      else if s.toNat ≤ 61 then s.toNat - 4
      else if s.toNat = 62 then 0x2B
      else 0x2F := by
  unfold alpha
  split_ifs <;> simp only [BitVec.toNat_ofNat] <;> omega

/-- The 64 slices, one by one. -/
theorem dlut_alpha : ∀ s : Slice, dlut (alpha s) = some s := by decide

/-- Each range of characters in DLUT is the range of slices that ALPHA maps to it. -/
theorem alpha_of_dlut {c : Byte} {s : Slice} (h : dlut c = some s) : alpha s = c := by
  rw [← BitVec.toNat_inj, toNat_alpha]
  unfold dlut at h
  split_ifs at h with hupper hlower hdigit hplus hslash <;> cases h
  · rw [BitVec.toNat_ofNat, if_pos (by omega)]
    omega
  · rw [BitVec.toNat_ofNat, if_neg (by omega), if_pos (by omega)]
    omega
  · rw [BitVec.toNat_ofNat, if_neg (by omega), if_neg (by omega), if_pos (by omega)]
    omega
  · exact hplus.symm
  · exact hslash.symm

/-- DLUT is the inverse of ALPHA (R123). -/
theorem dlut_eq_some_iff {c : Byte} {s : Slice} : dlut c = some s ↔ alpha s = c :=
  ⟨alpha_of_dlut, fun h => h ▸ dlut_alpha s⟩

theorem dlut_eq_none_iff {c : Byte} : dlut c = none ↔ ∀ s, alpha s ≠ c := by
  simp only [Option.eq_none_iff_forall_ne_some, ne_eq, dlut_eq_some_iff]

/-- Settles O7: both directions of the inverse, and a byte that is no code has no slice. -/
theorem decodeRomInvertsAlphabet : Obligations.DecodeRomInvertsAlphabet :=
  ⟨dlut_alpha, fun _ _ => alpha_of_dlut, fun _ => dlut_eq_none_iff.2⟩

/-- Settles O6: the 64 entries of the table, compared one by one. -/
theorem alphabetRomHoldsTable : Obligations.AlphabetRomHoldsTable :=
  ⟨rfl, by decide⟩

/-- Every code of ALPHA is a 7-bit ASCII code. -/
theorem toNat_alpha_lt (s : Slice) : (alpha s).toNat < 0x80 := by
  rw [toNat_alpha]
  split_ifs <;> omega

/-- Settles O8: the listed bytes are evaluated, and a byte from 0x80 up is above every code of ALPHA. -/
theorem specialBytesAreInvalid : Obligations.SpecialBytesAreInvalid := by
  refine ⟨by decide, fun c hc => dlut_eq_none_iff.2 fun s hs => ?_, fun c => beq_iff_eq⟩
  have := toNat_alpha_lt s
  rw [hs] at this
  omega

/-! ### The characters of an encoded text -/

theorem alpha_ne_pad (s : Slice) : alpha s ≠ Config.pad :=
  dlut_eq_none_iff.1 (specialBytesAreInvalid.1 Config.pad (by decide)) s

theorem alpha_ne_term (s : Slice) : alpha s ≠ Config.term :=
  dlut_eq_none_iff.1 (specialBytesAreInvalid.1 Config.term (by decide)) s

/-- An encoded text is alphabet characters, then as many '=' as the last group lacks bytes (42_encode.md R142, R143). -/
theorem encodeBytes_eq_map_alpha_append (raw : List Byte) :
    ∃ slices : List Slice,
      encodeBytes raw = slices.map alpha ++ List.replicate ((3 - raw.length % 3) % 3) Config.pad := by
  induction raw using encodeBytes.induct with
  | case1 b0 b1 b2 rest ih =>
    obtain ⟨slices, h⟩ := ih
    let w := encWindow b0 b1 b2
    refine ⟨slice0 w :: slice1 w :: slice2 w :: slice3 w :: slices, ?_⟩
    have hmod : (b0 :: b1 :: b2 :: rest).length % 3 = rest.length % 3 := Nat.add_mod_right rest.length 3
    rw [encodeBytes, h, hmod]
    rfl
  | case2 b0 b1 =>
    let w := encWindow b0 b1 0#8
    exact ⟨[slice0 w, slice1 w, slice2 w], rfl⟩
  | case3 b0 =>
    let w := encWindow b0 0#8 0#8
    exact ⟨[slice0 w, slice1 w], rfl⟩
  | case4 => exact ⟨[], rfl⟩

theorem eq_pad_or_alpha_of_mem_encodeBytes {raw : List Byte} {c : Byte} (h : c ∈ encodeBytes raw) :
    c = Config.pad ∨ ∃ s, alpha s = c := by
  obtain ⟨slices, heq⟩ := encodeBytes_eq_map_alpha_append raw
  rw [heq, List.mem_append, List.mem_map] at h
  obtain ⟨s, -, hs⟩ | hpad := h
  · exact .inr ⟨s, hs⟩
  · exact .inl (List.eq_of_mem_replicate hpad)

theorem ne_term_of_mem_encodeBytes {raw : List Byte} {c : Byte} (h : c ∈ encodeBytes raw) : c ≠ Config.term := by
  obtain rfl | ⟨s, rfl⟩ := eq_pad_or_alpha_of_mem_encodeBytes h
  · decide
  · exact alpha_ne_term s

/-- At most two '=' stand at the end, so a place before the last two is among the alphabet characters. -/
theorem getElem?_encodeBytes_ne_pad {raw : List Byte} {i : Nat} (hi : i + 2 < (encodeBytes raw).length) :
    (encodeBytes raw)[i]? ≠ some Config.pad := by
  obtain ⟨slices, heq⟩ := encodeBytes_eq_map_alpha_append raw
  rw [heq, List.length_append, List.length_map, List.length_replicate] at hi
  have hlt : i < slices.length := by omega
  rw [heq, List.getElem?_append_left (by rwa [List.length_map]), List.getElem?_map, List.getElem?_eq_getElem hlt]
  exact fun h => alpha_ne_pad _ (Option.some.inj h)

/-- Settles O11: '=' and TERM are no codes of ALPHA, and an encoded text is alphabet characters followed by at most two
'='. -/
theorem encodedTextCharacters : Obligations.EncodedTextCharacters :=
  ⟨fun s => ⟨alpha_ne_pad s, alpha_ne_term s⟩,
    fun _ _ h => ⟨ne_term_of_mem_encodeBytes h, eq_pad_or_alpha_of_mem_encodeBytes h⟩,
    fun _ _ => getElem?_encodeBytes_ne_pad⟩

end Sys2Proof.Machine
end

section
/-! ENCODE on buffer memory (42_encode.md R144 to R152): its text, what a completion leaves and reports, and how the
commands end when the bytes of memory differ (43_decode.md R191). -/

namespace Sys2Proof.Machine

/-! ### The text -/

theorem count_pad_map_alpha (slices : List Slice) : (slices.map alpha).count Config.pad = 0 := by
  rw [List.count_eq_zero, List.mem_map]
  rintro ⟨s, -, hs⟩
  exact alpha_ne_pad s hs

/-- Settles O10: only the padding at the end of an encoded text is '='. -/
theorem encodedTextLengthLaw : Obligations.EncodedTextLengthLaw := by
  intro raw
  refine ⟨length_encodeBytes raw, ?_⟩
  obtain ⟨slices, heq⟩ := encodeBytes_eq_map_alpha_append raw
  calc (encodeBytes raw).count Config.pad
    _ = (slices.map alpha).count Config.pad +
          (List.replicate ((3 - raw.length % 3) % 3) Config.pad).count Config.pad := by rw [heq, List.count_append]
    _ = (3 - raw.length % 3) % 3 := by rw [count_pad_map_alpha, List.count_replicate_self, Nat.zero_add]

/-! ### What a completion leaves and reports -/

theorem engineFrame_complete (code : ErrCode) (n : Nat) (m : Memory) (s : State) :
    engineFrame s (complete code n { s with mem := m }) :=
  ⟨rfl, rfl, rfl, rfl, rfl, rfl, rfl, rfl, rfl, rfl, rfl, rfl, rfl, rfl⟩

theorem toNat_resultValue_ok {n : Nat} (h : n < 2 ^ 32) : (resultValue .ok n).toNat = n :=
  (BitVec.toNat_ofNat n 32).trans (Nat.mod_eq_of_lt h)

theorem reports_complete_ok {n : Nat} (h : n < 2 ^ 32) (s : State) : reports (complete .ok n s) 0#4 n :=
  ⟨rfl, rfl, rfl, toNat_resultValue_ok h⟩

/-- The count of an ENCODE past its capacity check fits RESULT (42_encode.md R149). -/
theorem textLength_lt {s : State} (h : encodeNeed s.srcLen.toNat ≤ s.dstCap.toNat) :
    textLength s.srcLen.toNat < 2 ^ 32 :=
  Nat.lt_trans (Nat.lt_of_succ_le h) s.dstCap.isLt

/-- ENCODE with its buffers valid stores its output from DST_ADDR up and completes (R147, R149). -/
theorem execEncode_completes {s : State} (ready : s.EncodeReady)
    (hsrc : validRange s.plat s.srcAddr.toNat s.srcLen.toNat)
    (hdst : validRange s.plat s.dstAddr.toNat (encodeNeed s.srcLen.toNat)) :
    execEncode true true s =
      .next (complete .ok (textLength s.srcLen.toNat)
        { s with mem := s.mem.store s.dstAddr.toNat (encodeOutput s) }) := by
  rw [execEncode_readable ready ((validRange_iff ..).1 hsrc), storeAndComplete_next, length_encodeOutput]
  exact ⟨(validRange_iff ..).1 hdst, rfl⟩

/-- Settles O12: the bytes stored are the text and TERM, and the capacity bounds the count. -/
theorem encodeCompletes : Obligations.EncodeCompletes := by
  intro s hfit hsrc hdst hapart
  have ready : s.EncodeReady := ⟨hfit, (apart_iff ..).1 hapart⟩
  have hlen : (encodeOutput s).length = 4 * ((s.srcLen.toNat + 2) / 3) + 1 := length_encodeOutput s
  refine ⟨_, execEncode_completes ready hsrc hdst, engineFrame_complete .., reports_complete_ok (textLength_lt hfit) _,
    ?_, fun a ha => ?_⟩
  · rw [← hlen]
    exact Memory.bytesAt_store ..
  · exact Memory.byteAt_store_outside (by rwa [hlen])

/-- Settles O13: below its need ENCODE ends at the capacity check, and a need that DST_CAP meets is below 2^32. -/
theorem encodeShortCapacity : Obligations.EncodeShortCapacity := by
  refine ⟨fun s hc => ?_, fun s t h he => ?_, by decide, by decide⟩
  · exact ⟨_, execEncode_short hc, engineFrame_complete .ecap 0 s.mem s, ⟨rfl, rfl, rfl, rfl⟩, rfl⟩
  · rw [exec_encode] at h
    obtain ⟨hp, -⟩ | ⟨-, -, rfl⟩ | ⟨-, hfit, -⟩ := execEncode_next h
    · cases hp
    · cases he
    · have := s.dstCap.isLt
      rw [encodeNeed_eq] at hfit
      omega

/-- Settles O14: with n = 0 the need is 1 and the text is empty. -/
theorem encodeEmptyInput : Obligations.EncodeEmptyInput := by
  refine ⟨fun s hn hfit hdst => ?_, fun s hn hcap => ?_, fun s dp _ => ?_⟩
  · have h := encodeCompletes s
    simp only [hn, BitVec.toNat_ofNat] at h
    obtain ⟨t, ht, hframe, hreports, hbytes, hout⟩ := h hfit (fun i hi => absurd hi (Nat.not_lt_zero i))
      (fun i hi => by rwa [Nat.lt_one_iff.1 hi]) (fun x h1 h2 => by omega)
    exact ⟨t, ht, hframe, hreports, (List.cons.inj hbytes).1, hout⟩
  · exact encodeShortCapacity.1 s (by rw [hn, hcap]; decide)
  · exact ⟨_, exec_absent rfl s, engineFrame_complete .earg 0 s.mem s, ⟨rfl, rfl, rfl, rfl⟩, rfl⟩

/-! ### The read set that issue records -/

theorem Footprint.reads_of_readLen_zero {f : Footprint} (h : f.readLen = 0) (x : Nat) : f.reads x = false := by
  rw [← Bool.not_eq_true, Footprint.reads_iff]
  omega

/-- A command with an absent reference reads nothing (42_encode.md R150, 43_decode.md R191). -/
theorem readLen_footprint_absent {s : State} {i : Instr} (hc : decodeCmd s.cmd = .ok i)
    (habsent : i.sp = false ∨ i.dp = false) : (footprint s).readLen = 0 := by
  cases i with
  | encode sp dp =>
    rw [footprint_encode hc]
    obtain h | h := habsent
    · obtain rfl : sp = false := h
      rfl
    · obtain rfl : dp = false := h
      simp [encodeFootprint]
  | decode sp dp =>
    have habsent : sp = false ∨ dp = false := habsent
    rw [footprint_decode hc, decodeFootprint_absent habsent]
    rfl

/-- Settles O48: each command's footprint read off its definition, the scan written out as R191 has it. -/
theorem readSetOfACommand : Obligations.ReadSetOfACommand := by
  intro s x
  refine ⟨fun hc hfit => ?_, fun hc hshort => ?_, fun hc => ?_, fun i hc habsent => ?_⟩
  · rw [← encodeNeed_eq] at hfit
    rw [Footprint.reads_iff, footprint_encode hc]
    simp [encodeFootprint, hfit]
  · rw [← encodeNeed_eq] at hshort
    exact Footprint.reads_of_readLen_zero (by simp [footprint_encode hc, encodeFootprint, hshort]) x
  · have hread : (decodeFootprint true true s).readLen = min s.srcLen.toNat (decodeLength s + 1) := decodeScan_eq_min s
    rw [Footprint.reads_iff, footprint_decode hc, hread]
    rfl
  · exact Footprint.reads_of_readLen_zero (readLen_footprint_absent hc habsent) x

/-! ### How a command ends, apart from the bytes it leaves -/

/-- How a command ends as the host learns it: ERR and RESULT of a completion, or why it stops. -/
def ending : Host.Outcome State Fault Refusal → Host.Outcome (BitVec 4 × Word) Fault Refusal
  | .next t => .next (t.err, t.result)
  | .fault f => .fault f
  | .refused r => .refused r

theorem ending_eq_next {o : Host.Outcome State Fault Refusal} {e : BitVec 4} {w : Word} :
    ending o = .next (e, w) ↔ ∃ u, o = .next u ∧ u.err = e ∧ u.result = w := by
  cases o <;> simp [ending]

theorem ending_eq_fault {o : Host.Outcome State Fault Refusal} {f : Fault} : ending o = .fault f ↔ o = .fault f := by
  cases o <;> simp [ending]

theorem ending_eq_refused {o : Host.Outcome State Fault Refusal} {r : Refusal} :
    ending o = .refused r ↔ o = .refused r := by
  cases o <;> simp [ending]

/-- Equal ends, outcome by outcome. -/
theorem outcomes_of_ending_eq {o o' : Host.Outcome State Fault Refusal} (h : ending o' = ending o) :
    (∀ t, o = .next t → ∃ u, o' = .next u ∧ u.err = t.err ∧ u.result = t.result) ∧
    (∀ f, o = .fault f → o' = .fault f) ∧ (∀ r, o = .refused r → o' = .refused r) := by
  refine ⟨?_, ?_, ?_⟩
  · rintro t rfl
    exact ending_eq_next.1 h
  · rintro f rfl
    exact ending_eq_fault.1 h
  · rintro r rfl
    exact ending_eq_refused.1 h

/-- A store that ends a command ends alike for any other bytes of the same number. -/
theorem ending_storeAndComplete_withMem (s : State) (m : Memory) {bs bs' : List Byte} (hl : bs'.length = bs.length)
    (a n : Nat) : ending (storeAndComplete a bs' n { s with mem := m }) = ending (storeAndComplete a bs n s) := by
  unfold storeAndComplete
  rw [hl]
  cases firstInvalid s.plat a bs.length <;> rfl

/-- Every command with an absent reference ends with EARG (60_exceptions.md R212). -/
theorem ending_exec_absent {i : Instr} (h : (i.sp && i.dp) = false) (t s : State) :
    ending (exec i t) = ending (exec i s) := by
  rw [exec_absent h, exec_absent h]
  rfl

/-- No check of ENCODE looks at memory, and the length of its output does not depend on the bytes (42_encode.md R152). -/
theorem ending_exec_encode_withMem (sp dp : Bool) (s : State) (m : Memory) :
    ending (exec (.encode sp dp) { s with mem := m }) = ending (exec (.encode sp dp) s) := by
  cases hp : sp && dp with
  | false => exact ending_exec_absent (i := .encode sp dp) hp _ s
  | true =>
    obtain ⟨rfl, rfl⟩ := Bool.and_eq_true_iff.1 hp
    rw [exec_encode, exec_encode]
    obtain ⟨hc, e⟩ | ⟨hc, ho, e⟩ | ⟨ready, bad, hr, e⟩ | ⟨ready, hr, e⟩ := execEncode_cases s <;> rw [e]
    · rw [execEncode_short (s := { s with mem := m }) hc]
      rfl
    · rw [execEncode_overlap (s := { s with mem := m }) hc ho]
    · rw [execEncode_unreadable (s := { s with mem := m }) ⟨ready.fits, ready.disjoint⟩ hr]
    · rw [execEncode_readable (s := { s with mem := m }) ⟨ready.fits, ready.disjoint⟩ hr]
      have hlen : (encodeOutput { s with mem := m }).length = (encodeOutput s).length :=
        (length_encodeOutput _).trans (length_encodeOutput s).symm
      exact ending_storeAndComplete_withMem s m hlen _ _

/-- Settles O15: the two ends are equal. -/
theorem encodeOutcomeIgnoresByteValues : Obligations.EncodeOutcomeIgnoresByteValues :=
  fun s m sp dp => outcomes_of_ending_eq (ending_exec_encode_withMem sp dp s m)

/-! ### A command and the bytes of its read set -/

section
variable {s t : State} (h : t.SameReads s) (hc : decodeCmd s.cmd = .ok (.decode true true))
include h hc

theorem State.SameReads.decodeReady (ready : s.DecodeReady) : t.DecodeReady where
  scanned := by rw [h.plat, h.srcAddr, h.decodeScan_eq hc]; exact ready.scanned
  long := by rw [h.decodeLength_eq hc]; exact ready.long
  fits := by rw [h.decodeText_eq hc, h.dstCap]; exact ready.fits
  disjoint := by
    rw [h.srcAddr, h.decodeScan_eq hc, h.dstAddr, h.decodeText_eq hc]
    exact ready.disjoint

/-- A DECODE ends alike wherever the bytes it scans are the same (43_decode.md R191). -/
theorem State.SameReads.ending_execDecode : ending (execDecode true true t) = ending (execDecode true true s) := by
  have hscan : firstInvalid t.plat t.srcAddr.toNat (decodeScan t) =
      firstInvalid s.plat s.srcAddr.toNat (decodeScan s) := by rw [h.plat, h.srcAddr, h.decodeScan_eq hc]
  cases hs : execDecode true true s with
  | next u =>
    obtain ⟨code, n, bs, rfl, ht, -⟩ := execDecode_local h hc hs
    rw [ht]
    rfl
  | fault f =>
    refine ending_eq_fault.2 (execDecode_fault.2 ?_)
    obtain ⟨bad, rfl, hr | ⟨ready, hw⟩⟩ := execDecode_fault.1 hs
    · exact ⟨bad, rfl, .inl (hscan.trans hr)⟩
    · exact ⟨bad, rfl, .inr ⟨h.decodeReady hc ready, by rwa [h.plat, h.dstAddr, h.decodeText_eq hc]⟩⟩
  | refused r =>
    refine ending_eq_refused.2 (execDecode_refused.2 ?_)
    obtain ⟨rfl, hr, h4, hfit, ho⟩ := execDecode_refused.1 hs
    refine ⟨rfl, hscan.trans hr, ?_, ?_, ?_⟩
    · rwa [h.decodeLength_eq hc]
    · rwa [h.decodeText_eq hc, h.dstCap]
    · rwa [h.srcAddr, h.decodeScan_eq hc, h.dstAddr, h.decodeText_eq hc]

end

theorem State.SameReads.ending_exec {s : State} {m : Memory} (h : State.SameReads { s with mem := m } s) {i : Instr}
    (hc : decodeCmd s.cmd = .ok i) : ending (exec i { s with mem := m }) = ending (exec i s) := by
  cases hp : i.sp && i.dp with
  | false => exact ending_exec_absent hp _ s
  | true =>
    obtain rfl | rfl := eq_of_present hp
    · exact ending_exec_encode_withMem true true s m
    · exact h.ending_execDecode hc

/-- After a success the RESULT + 1 bytes at DST_ADDR are ENCODE's output, TERM included (42_encode.md R147). -/
theorem execEncode_written {s t : State} (h : execEncode true true s = .next t) (he : t.err = 0#4) :
    encodeNeed s.srcLen.toNat ≤ s.dstCap.toNat ∧
      t.mem.bytesAt s.dstAddr.toNat (t.result.toNat + 1) = encodeOutput s := by
  obtain ⟨hp, -⟩ | ⟨-, -, rfl⟩ | ⟨-, hfit, -, -, -, rfl⟩ := execEncode_next h
  · cases hp
  · cases he
  · have hlen : (encodeOutput s).length = textLength s.srcLen.toNat + 1 := length_encodeOutput s
    rw [complete_result, toNat_resultValue_ok (textLength_lt hfit), ← hlen]
    exact ⟨hfit, Memory.bytesAt_store ..⟩

/-- After a success the RESULT bytes at DST_ADDR are the decoded bytes; an empty text has none (43_decode.md R182,
R190). -/
theorem execDecode_written {s t : State} (h : execDecode true true s = .next t) (he : t.err = 0#4) :
    t.mem.bytesAt s.dstAddr.toNat t.result.toNat = decodeGroups (decodeText s) := by
  obtain ⟨hp, -⟩ | ⟨-, -, ⟨h0, rfl⟩ | ⟨-, -, rfl⟩ | ⟨-, -, rfl⟩ | ⟨-, hfit, -, -, rfl⟩⟩ := execDecode_next h
  · cases hp
  · have htext : decodeText s = [] := by rw [decodeText, h0]; rfl
    rw [htext]
    rfl
  · cases he
  · cases he
  · have hlt : (decodeGroups (decodeText s)).length < 2 ^ 32 :=
      Nat.lt_of_le_of_lt ((length_decodeGroups_decodeText_le s).trans hfit) s.dstCap.isLt
    rw [complete_result, toNat_resultValue_ok hlt]
    exact Memory.bytesAt_store ..

/-- Settles O31: the two ends are equal, and what a success writes is a function of the bytes read. -/
theorem commandsReadOnlyTheirReadSet : Obligations.CommandsReadOnlyTheirReadSet := by
  intro i s m hc hreads
  have same : State.SameReads { s with mem := m } s :=
    ⟨rfl, rfl, rfl, rfl, rfl, rfl, fun x hx => (hreads x hx).symm⟩
  obtain ⟨hnext, hfault, hrefused⟩ := outcomes_of_ending_eq (same.ending_exec hc)
  refine ⟨fun t ht => ?_, hfault, hrefused⟩
  obtain ⟨u, hu, herr, hresult⟩ := hnext t ht
  refine ⟨u, hu, herr, hresult, ?_, ?_⟩
  · rintro he rfl
    obtain ⟨hfit, hs⟩ := execEncode_written ht he
    obtain ⟨-, hm⟩ := execEncode_written hu (herr.trans he)
    rw [hs, ← same.encodeOutput_eq hc hfit, ← hm, hresult]
  · rintro he rfl
    have hm := execDecode_written hu (herr.trans he)
    rw [execDecode_written ht he, ← same.decodeText_eq hc, ← hm, hresult]

end Sys2Proof.Machine
end

section
/-! The group unpacker and the whole-buffer decoder (43_decode.md R171 to R188): what a group answers, case by case, the
unpacker as the inverse of the packer, and where the decoding of a text stops. -/

namespace Sys2Proof.Machine

/-! ### Characters (43_decode.md R171 to R175) -/

theorem isPad_iff (c : Byte) : isPad c = true ↔ c = Config.pad := beq_iff_eq

theorem isPad_pad : isPad Config.pad = true := rfl

theorem dlut_pad : dlut Config.pad = none := by decide

theorem isPad_of_dlut {c : Byte} {v : Slice} (h : dlut c = some v) : isPad c = false := by
  rw [← Bool.not_eq_true, isPad_iff]
  rintro rfl
  cases dlut_pad.symm.trans h

theorem charValid_iff (i : Nat) (c : Byte) : charValid i c = true ↔ dlut c ≠ none ∨ (c = Config.pad ∧ 2 ≤ i) := by
  simp [charValid, isPad_iff, Option.isSome_iff_ne_none]

theorem charValid_of_dlut {c : Byte} {v : Slice} (h : dlut c = some v) (i : Nat) : charValid i c = true :=
  (charValid_iff i c).2 (.inl (h ▸ Option.some_ne_none v))

/-- Padding is permitted in the third and the fourth place (R173). -/
theorem charValid_pad {i : Nat} (h : 2 ≤ i) : charValid i Config.pad = true := (charValid_iff i _).2 (.inr ⟨rfl, h⟩)

theorem charValue_of_dlut {c : Byte} {v : Slice} (h : dlut c = some v) : charValue c = v := by
  rw [charValue, h, Option.getD_some]

/-! ### The bytes of a group (R175) -/

theorem decByte0_eq (v0 v1 : Slice) : decByte0 v0 v1 = BitVec.ofNat 8 ((v0.toNat <<< 2) ||| (v1.toNat >>> 4)) := by
  have h : v1.toNat >>> 4 < 2 ^ 2 := by rw [Nat.shiftRight_eq_div_pow]; omega
  rw [← BitVec.toNat_inj, decByte0, BitVec.toNat_append, BitVec.extractLsb'_toNat, BitVec.toNat_ofNat,
    Nat.mod_eq_of_lt h, ← Nat.shiftLeft_add_eq_or_of_lt h, Nat.shiftLeft_eq]
  omega

theorem decByte1_eq (v1 v2 : Slice) : decByte1 v1 v2 = BitVec.ofNat 8 ((v1.toNat <<< 4) ||| (v2.toNat >>> 2)) := by
  have h : v2.toNat >>> 2 < 2 ^ 4 := by rw [Nat.shiftRight_eq_div_pow]; omega
  rw [← BitVec.toNat_inj, decByte1, BitVec.toNat_append, BitVec.extractLsb'_toNat, BitVec.extractLsb'_toNat,
    BitVec.toNat_ofNat, Nat.mod_eq_of_lt h, ← Nat.shiftLeft_add_eq_or_of_lt h, ← Nat.shiftLeft_add_eq_or_of_lt h,
    Nat.shiftLeft_eq, Nat.shiftLeft_eq, Nat.shiftRight_zero]
  omega

theorem decByte2_eq (v2 v3 : Slice) : decByte2 v2 v3 = BitVec.ofNat 8 ((v2.toNat <<< 6) ||| v3.toNat) := by
  rw [← BitVec.toNat_inj, decByte2, BitVec.toNat_append, BitVec.extractLsb'_toNat, BitVec.toNat_ofNat,
    ← Nat.shiftLeft_add_eq_or_of_lt v3.isLt, ← Nat.shiftLeft_add_eq_or_of_lt v3.isLt, Nat.shiftLeft_eq,
    Nat.shiftLeft_eq, Nat.shiftRight_zero]
  omega

/-! ### DEC_GROUP, case by case (R177) -/

theorem decGroup_full {c0 c1 c2 c3 : Byte} {v0 v1 v2 v3 : Slice} (h0 : dlut c0 = some v0) (h1 : dlut c1 = some v1)
    (h2 : dlut c2 = some v2) (h3 : dlut c3 = some v3) :
    decGroup c0 c1 c2 c3 =
      { ok := true, stop := false, out := [decByte0 v0 v1, decByte1 v1 v2, decByte2 v2 v3] } := by
  simp [decGroup, charValid_of_dlut, charValue_of_dlut, isPad_of_dlut, h0, h1, h2, h3]

theorem decGroup_pad_fourth {c0 c1 c2 : Byte} {v0 v1 v2 : Slice} (h0 : dlut c0 = some v0) (h1 : dlut c1 = some v1)
    (h2 : dlut c2 = some v2) :
    decGroup c0 c1 c2 Config.pad = { ok := true, stop := true, out := [decByte0 v0 v1, decByte1 v1 v2] } := by
  simp [decGroup, charValid_of_dlut, charValid_pad, charValue_of_dlut, isPad_of_dlut, isPad_pad, h0, h1, h2]

/-- With '=' in the third place the fourth character is checked and has no other effect. -/
theorem decGroup_pad_third {c0 c1 c3 : Byte} {v0 v1 : Slice} (h0 : dlut c0 = some v0) (h1 : dlut c1 = some v1)
    (h3 : dlut c3 ≠ none ∨ c3 = Config.pad) :
    decGroup c0 c1 Config.pad c3 = { ok := true, stop := true, out := [decByte0 v0 v1] } := by
  have h3 : charValid 3 c3 = true := (charValid_iff 3 c3).2 (h3.imp_right fun h => ⟨h, by decide⟩)
  simp [decGroup, charValid_of_dlut, charValid_pad, charValue_of_dlut, isPad_pad, h0, h1, h3]

/-- '=' in one of the first two places is invalid too (R172, R173): DLUT has no slice for it. -/
theorem decGroup_invalid {c0 c1 c2 c3 : Byte}
    (h : dlut c0 = none ∨ dlut c1 = none ∨ (dlut c2 = none ∧ c2 ≠ Config.pad) ∨ (dlut c3 = none ∧ c3 ≠ Config.pad)) :
    decGroup c0 c1 c2 c3 = { ok := false, stop := true, out := [] } := by
  have hbad : ¬(charValid 0 c0 && charValid 1 c1 && charValid 2 c2 && charValid 3 c3) = true := by
    simp only [Bool.and_eq_true, charValid_iff]
    rintro ⟨⟨⟨g0, g1⟩, g2⟩, g3⟩
    obtain h | h | ⟨h, hp⟩ | ⟨h, hp⟩ := h
    · exact g0.elim (· h) fun g => absurd g.2 (by decide)
    · exact g1.elim (· h) fun g => absurd g.2 (by decide)
    · exact g2.elim (· h) (hp ·.1)
    · exact g3.elim (· h) (hp ·.1)
  rw [decGroup, if_neg hbad]

theorem decGroup_of_not_ok {c0 c1 c2 c3 : Byte} (h : (decGroup c0 c1 c2 c3).ok = false) :
    decGroup c0 c1 c2 c3 = { ok := false, stop := true, out := [] } := by
  unfold decGroup at h ⊢
  split_ifs at h ⊢
  rfl

/-- A group with '=' in its third or fourth place stops, valid or not (R177). -/
theorem decGroup_stop_of_pad {c0 c1 c2 c3 : Byte} (h : c2 = Config.pad ∨ c3 = Config.pad) :
    (decGroup c0 c1 c2 c3).stop = true := by
  unfold decGroup
  split_ifs with hvalid h2 h3
  · rfl
  · rfl
  · rw [isPad_iff] at h2 h3
    exact absurd h (not_or.2 ⟨h2, h3⟩)
  · rfl

/-- Settles O16: the four cases of the group, its bytes as the source's shift expressions. -/
theorem decoderGroupRule : Obligations.DecoderGroupRule := by
  refine fun c0 c1 c2 c3 => ⟨fun v0 v1 v2 v3 h0 h1 h2 h3 => ?_, fun v0 v1 v2 h0 h1 h2 h3 => ?_,
    fun v0 v1 h0 h1 h2 h3 => ?_, decGroup_invalid⟩
  · rw [decGroup_full h0 h1 h2 h3, decByte0_eq, decByte1_eq, decByte2_eq]
  · subst h3
    rw [← decByte0_eq, ← decByte1_eq]
    exact decGroup_pad_fourth h0 h1 h2
  · subst h2
    rw [← decByte0_eq]
    exact decGroup_pad_third h0 h1 h3

/-! ### The bits that padding leaves unread (R180) -/

/-- The first byte takes the upper two bits of the second value. -/
theorem decByte0_congr (v0 : Slice) {v w : Slice} (h : v.toNat / 16 = w.toNat / 16) :
    decByte0 v0 v = decByte0 v0 w := by
  rw [decByte0_eq, decByte0_eq, Nat.shiftRight_eq_div_pow, Nat.shiftRight_eq_div_pow, h]

/-- The second byte takes the upper four bits of the third value. -/
theorem decByte1_congr (v1 : Slice) {v w : Slice} (h : v.toNat / 4 = w.toNat / 4) :
    decByte1 v1 v = decByte1 v1 w := by
  rw [decByte1_eq, decByte1_eq, Nat.shiftRight_eq_div_pow, Nat.shiftRight_eq_div_pow, h]

/-- Settles O19: a group with padding emits no byte that holds the low bits of its last character. -/
theorem paddingBitsAreNotChecked : Obligations.PaddingBitsAreNotChecked := by
  have hp : isPad 0x3D#8 = true := isPad_pad
  refine ⟨fun c0 c1 d1 c3 v w hv hw hvw => ?_, fun c0 c1 c2 d2 v w hv hw hvw => ?_, by decide⟩
  · simp [decGroup, charValid_of_dlut, charValue_of_dlut, hv, hw, hp, decByte0_congr _ hvw]
  · simp [decGroup, charValid_of_dlut, charValue_of_dlut, isPad_of_dlut hv, isPad_of_dlut hw, hv, hw, hp,
      decByte1_congr _ hvw]

/-! ### The unpacker inverts the packer (R188, 42_encode.md R143) -/

theorem extractLsb'_extractLsb'_of_add_le {n : Nat} (w : BitVec n) {start len start' len' : Nat}
    (h : start' + len' ≤ len) :
    (w.extractLsb' start len).extractLsb' start' len' = w.extractLsb' (start + start') len' := by
  ext i hi
  simp only [BitVec.getElem_extractLsb', BitVec.getLsbD_extractLsb', Nat.add_assoc, Bool.and_eq_right_iff_imp,
    decide_eq_true_eq]
  omega

/-- The bits that a byte's two slices hold of it stand side by side in the window (R175, 42_encode.md R141). -/
theorem decByte0_slices (w : BitVec 24) : decByte0 (slice0 w) (slice1 w) = w.extractLsb' 16 8 :=
  calc w.extractLsb' 18 6 ++ (w.extractLsb' 12 6).extractLsb' 4 2
    _ = w.extractLsb' 18 6 ++ w.extractLsb' 16 2 := by rw [extractLsb'_extractLsb'_of_add_le w (by decide)]
    _ = w.extractLsb' 16 8 := BitVec.extractLsb'_append_extractLsb'_eq_extractLsb' rfl

theorem decByte1_slices (w : BitVec 24) : decByte1 (slice1 w) (slice2 w) = w.extractLsb' 8 8 :=
  calc ((w.extractLsb' 12 6).extractLsb' 0 4 ++ (w.extractLsb' 6 6).extractLsb' 2 4 : BitVec (4 + 4))
    _ = w.extractLsb' 12 4 ++ w.extractLsb' 8 4 := by
      rw [extractLsb'_extractLsb'_of_add_le w (by decide), extractLsb'_extractLsb'_of_add_le w (by decide)]
    _ = w.extractLsb' 8 8 := BitVec.extractLsb'_append_extractLsb'_eq_extractLsb' rfl

theorem decByte2_slices (w : BitVec 24) : decByte2 (slice2 w) (slice3 w) = w.extractLsb' 0 8 :=
  calc (w.extractLsb' 6 6).extractLsb' 0 2 ++ w.extractLsb' 0 6
    _ = w.extractLsb' 6 2 ++ w.extractLsb' 0 6 := by rw [extractLsb'_extractLsb'_of_add_le w (by decide)]
    _ = w.extractLsb' 0 8 := BitVec.extractLsb'_append_extractLsb'_eq_extractLsb' rfl

theorem byte0_encWindow (b0 b1 b2 : Byte) : (encWindow b0 b1 b2).extractLsb' 16 8 = b0 :=
  (BitVec.extractLsb'_append_eq_of_le (by decide)).trans BitVec.extractLsb'_append_eq_left

theorem byte1_encWindow (b0 b1 b2 : Byte) : (encWindow b0 b1 b2).extractLsb' 8 8 = b1 :=
  (BitVec.extractLsb'_append_eq_of_le (by decide)).trans BitVec.extractLsb'_append_eq_right

theorem byte2_encWindow (b0 b1 b2 : Byte) : (encWindow b0 b1 b2).extractLsb' 0 8 = b2 :=
  BitVec.extractLsb'_append_eq_right

/-! ### Decoding group by group (R188) -/

theorem decodeGroups_stop {c0 c1 c2 c3 : Byte} (h : (decGroup c0 c1 c2 c3).stop = true) (rest : List Byte) :
    decodeGroups (c0 :: c1 :: c2 :: c3 :: rest) = (decGroup c0 c1 c2 c3).out := by
  rw [decodeGroups, if_pos h]

/-- A group of three bytes goes on to the next (42_encode.md R142). -/
theorem decodeGroups_encGroup3_append (b0 b1 b2 : Byte) (rest : List Byte) :
    decodeGroups (encGroup3 b0 b1 b2 ++ rest) = b0 :: b1 :: b2 :: decodeGroups rest := by
  have hgroup := decGroup_full (dlut_alpha (slice0 (encWindow b0 b1 b2))) (dlut_alpha (slice1 (encWindow b0 b1 b2)))
    (dlut_alpha (slice2 (encWindow b0 b1 b2))) (dlut_alpha (slice3 (encWindow b0 b1 b2)))
  rw [decByte0_slices, decByte1_slices, decByte2_slices, byte0_encWindow, byte1_encWindow, byte2_encWindow] at hgroup
  simp [encGroup3, decodeGroups, hgroup]

theorem decodeGroups_encGroup2 (b0 b1 : Byte) : decodeGroups (encGroup2 b0 b1) = [b0, b1] := by
  have hgroup := decGroup_pad_fourth (dlut_alpha (slice0 (encWindow b0 b1 0#8)))
    (dlut_alpha (slice1 (encWindow b0 b1 0#8))) (dlut_alpha (slice2 (encWindow b0 b1 0#8)))
  rw [decByte0_slices, decByte1_slices, byte0_encWindow, byte1_encWindow] at hgroup
  simp [encGroup2, decodeGroups, hgroup]

theorem decodeGroups_encGroup1 (b0 : Byte) : decodeGroups (encGroup1 b0) = [b0] := by
  have hgroup := decGroup_pad_third (dlut_alpha (slice0 (encWindow b0 0#8 0#8)))
    (dlut_alpha (slice1 (encWindow b0 0#8 0#8))) (.inr (rfl : Config.pad = Config.pad))
  rw [decByte0_slices, byte0_encWindow] at hgroup
  simp [encGroup1, decodeGroups, hgroup]

/-- Complete groups decode to their raw bytes, and the decoding goes on after them (R178, R179). -/
theorem decodeGroups_encodeBytes_append (raw rest : List Byte) (h : raw.length % 3 = 0) :
    decodeGroups (encodeBytes raw ++ rest) = raw ++ decodeGroups rest := by
  induction raw using encodeBytes.induct with
  | case1 b0 b1 b2 raw ih =>
    have h : raw.length % 3 = 0 := (Nat.add_mod_right raw.length 3).symm.trans h
    rw [encodeBytes, List.append_assoc, decodeGroups_encGroup3_append, ih h]
    rfl
  | case2 b0 b1 => exact absurd h (by simp)
  | case3 b0 => exact absurd h (by simp)
  | case4 => rfl

/-- Settles O21: group by group, the last one with the padding that its length asks for. -/
theorem decodingInvertsEncoding : Obligations.DecodingInvertsEncoding := by
  intro raw
  induction raw using encodeBytes.induct with
  | case1 b0 b1 b2 raw ih => rw [encodeBytes, decodeGroups_encGroup3_append, ih]
  | case2 b0 b1 => exact decodeGroups_encGroup2 b0 b1
  | case3 b0 => exact decodeGroups_encGroup1 b0
  | case4 => rfl

/-- Settles O17: the decoding reaches the invalid group, which stops it and emits nothing. -/
theorem invalidGroupStopsDecoding : Obligations.InvalidGroupStopsDecoding := by
  refine ⟨fun raw rest c0 c1 c2 c3 hraw hbad => ?_, by decide, by decide⟩
  have hgroup := decGroup_of_not_ok hbad
  rw [decodeGroups_encodeBytes_append _ _ hraw, decodeGroups_stop (by rw [hgroup]), hgroup, List.append_nil]

/-- Settles O18: the decoding reaches the padded group, which stops it after its own bytes. -/
theorem paddedGroupStopsDecoding : Obligations.PaddedGroupStopsDecoding := by
  refine ⟨fun raw rest c0 c1 c2 c3 hraw _ hpad => ?_, by decide⟩
  rw [decodeGroups_encodeBytes_append _ _ hraw, decodeGroups_stop (decGroup_stop_of_pad hpad)]

/-! ### The trailing padding and the expected length (R185, R186) -/

/-- Settles O20: only the last two characters decide the count. -/
theorem trailingPaddingCount : Obligations.TrailingPaddingCount := by
  intro text c d
  have hcount : trailingPad [c, d] = if d = Config.pad then (if c = Config.pad then 2 else 1) else 0 := by
    simp only [← isPad_iff]
    rfl
  rw [trailingPad_append text [c, d] (by simp), hcount]
  refine ⟨fun hd => if_neg hd, fun hd hc => ?_, fun hd hc => ?_⟩
  · exact (if_pos hd).trans (if_neg hc)
  · exact (if_pos hd).trans (if_pos hc)

/-- The padding at the end of an encoded text is what its last group lacks (42_encode.md R142). -/
theorem trailingPad_encodeBytes (raw : List Byte) : trailingPad (encodeBytes raw) = (3 - raw.length % 3) % 3 := by
  induction raw using encodeBytes.induct with
  | case1 b0 b1 b2 raw ih =>
    have hmod : (b0 :: b1 :: b2 :: raw).length % 3 = raw.length % 3 := Nat.add_mod_right raw.length 3
    rw [encodeBytes, hmod]
    cases raw with
    | nil => exact (trailingPaddingCount [_, _] _ _).1 (alpha_ne_pad _)
    | cons b raw =>
      have hlen : 2 ≤ (encodeBytes (b :: raw)).length := by
        rw [length_encodeBytes, textLength, groupCount, List.length_cons]
        omega
      rw [trailingPad_append _ _ hlen, ih]
  | case2 b0 b1 => exact (trailingPaddingCount [_, _] _ _).2.1 rfl (alpha_ne_pad _)
  | case3 b0 => exact (trailingPaddingCount [_, _] _ _).2.2 rfl rfl
  | case4 => rfl

/-- DECODE expects of an encoded text as many bytes as were encoded (R186). -/
theorem expectedLength_encodeBytes (raw : List Byte) : expectedLength (encodeBytes raw) = raw.length := by
  rw [expectedLength, trailingPad_encodeBytes, length_encodeBytes, textLength, groupCount]
  omega

end Sys2Proof.Machine
end

section
/-! DECODE on buffer memory (43_decode.md R181 to R196): how it completes, what a shorter SRC_LEN changes, and the
round trip with ENCODE. -/

namespace Sys2Proof.Machine

/-! ### Ranges -/

theorem validRange.mono {p : Platform} {a n k : Nat} (h : validRange p a n) (hk : k ≤ n) : validRange p a k :=
  fun i hi => h i (Nat.lt_of_lt_of_le hi hk)

theorem apart.mono {a n n' b k k' : Nat} (h : apart a n b k) (hn : n' ≤ n) (hk : k' ≤ k) : apart a n' b k' :=
  fun x hle hlt => (h x hle (by omega)).imp_right (by omega)

/-! ### How a DECODE completes (R182, R187, R189, R190) -/

/-- The bytes that R191's scan reads are valid, in the words of the statements. -/
theorem scanned_iff (s : State) :
    firstInvalid s.plat s.srcAddr.toNat (decodeScan s) = none ↔
      validRange s.plat s.srcAddr.toNat (min s.srcLen.toNat (decodeLength s + 1)) := by
  rw [validRange_iff, decodeScan_eq_min]

/-- The checks of R192, with the scan as R191 and the expected length as R186 write them. -/
theorem State.DecodeReady.of_lengths {s : State}
    (hscan : validRange s.plat s.srcAddr.toNat (min s.srcLen.toNat (decodeLength s + 1))) (h4 : 4 ≤ decodeLength s)
    (hfit : decodeLength s / 4 * 3 - trailingPad (decodeText s) ≤ s.dstCap.toNat)
    (hapart : apart s.srcAddr.toNat (min s.srcLen.toNat (decodeLength s + 1)) s.dstAddr.toNat
      (decodeLength s / 4 * 3 - trailingPad (decodeText s))) : s.DecodeReady where
  scanned := (scanned_iff s).2 hscan
  long := h4
  fits := by rwa [expectedLength_decodeText]
  disjoint := by rwa [decodeScan_eq_min, expectedLength_decodeText, ← apart_iff]

/-- The count of a DECODE past its capacity check fits RESULT. -/
theorem length_decodeGroups_decodeText_lt {s : State} (h : expectedLength (decodeText s) ≤ s.dstCap.toNat) :
    (decodeGroups (decodeText s)).length < 2 ^ 32 :=
  Nat.lt_of_le_of_lt ((length_decodeGroups_decodeText_le s).trans h) s.dstCap.isLt

/-- DECODE with its buffers valid stores the decoded bytes from DST_ADDR up and completes. -/
theorem execDecode_completes {s : State} (ready : s.DecodeReady)
    (hdst : validRange s.plat s.dstAddr.toNat (decodeGroups (decodeText s)).length) :
    execDecode true true s =
      .next (complete .ok (decodeGroups (decodeText s)).length
        { s with mem := s.mem.store s.dstAddr.toNat (decodeGroups (decodeText s)) }) := by
  rw [execDecode_ready ready, storeAndComplete_next]
  exact ⟨(validRange_iff ..).1 hdst, rfl⟩

/-- Settles O22: the statement's conditions are the checks of R192, and the bytes stored are those of the groups. -/
theorem decodeCompletes : Obligations.DecodeCompletes := by
  intro s len text hlen h4 htext hfit hscan hdst hapart
  subst hlen htext
  have ready := State.DecodeReady.of_lengths hscan h4 hfit hapart
  exact ⟨_, execDecode_completes ready hdst, engineFrame_complete ..,
    reports_complete_ok (length_decodeGroups_decodeText_lt ready.fits) _, Memory.bytesAt_store ..,
    fun _ => Memory.byteAt_store_outside⟩

/-- Settles O23: an empty text ends DECODE before it looks at DST_CAP or DST_ADDR. -/
theorem decodeEmptyText : Obligations.DecodeEmptyText := by
  intro s hlen hscan
  have h0 : decodeLength s = 0 := hlen
  have hr := (scanned_iff s).2 (by rwa [h0])
  exact ⟨_, execDecode_empty hr h0, engineFrame_complete .ok 0 s.mem s, ⟨rfl, rfl, rfl, rfl⟩, rfl⟩

/-- Settles O25: below the expected length DECODE ends at the capacity check. -/
theorem decodeShortCapacity : Obligations.DecodeShortCapacity := by
  intro s len hlen h4 hscan hshort
  subst hlen
  have hc : s.dstCap.toNat < expectedLength (decodeText s) := by rwa [expectedLength_decodeText]
  exact ⟨_, execDecode_short ((scanned_iff s).2 hscan) h4 hc, engineFrame_complete .ecap 0 s.mem s,
    ⟨rfl, rfl, rfl, rfl⟩, rfl⟩

/-- Settles O26: the decoded bytes are at most E of R186, which the capacity check holds to DST_CAP. -/
theorem decodeNeverOverruns : Obligations.DecodeNeverOverruns := by
  refine ⟨fun text _ hmod => length_decodeGroups_le text hmod, fun sp dp s t h he => ?_⟩
  obtain ⟨-, rfl⟩ | ⟨-, -, ⟨-, rfl⟩ | ⟨-, -, rfl⟩ | ⟨-, -, rfl⟩ | ⟨-, hfit, -, -, rfl⟩⟩ := execDecode_next h
  · cases he
  · exact ⟨Nat.zero_le _, fun _ _ => rfl⟩
  · cases he
  · cases he
  · have hle := (length_decodeGroups_decodeText_le s).trans hfit
    rw [complete_result, toNat_resultValue_ok (length_decodeGroups_decodeText_lt hfit)]
    exact ⟨hle, fun a ha => Memory.byteAt_store_outside (by omega)⟩

/-! ### Truncation to whole groups (R183, R195) -/

/-- A text cut before its end is that long. -/
theorem effectiveLength_of_le {m : Memory} {a k n : Nat} (h : n ≤ effectiveLength m a k) : effectiveLength m a n = n :=
  effectiveLength_eq le_rfl (fun i hi => (effectiveLength_spec m a k).1 i (Nat.lt_of_lt_of_le hi h))
    (fun hlt => absurd hlt (Nat.lt_irrefl n))

theorem truncatedLength_le (n : Nat) : truncatedLength n ≤ n := Nat.mul_div_le n 4

theorem truncatedLength_four_mul (k : Nat) : truncatedLength (4 * k) = 4 * k := by
  rw [truncatedLength, Nat.mul_div_cancel_left k (by decide)]

section
variable {s : State} {w : Word} (hw : w.toNat = truncatedLength (decodeLength s))
include hw

theorem decodeLength_truncated : decodeLength { s with srcLen := w } = truncatedLength (decodeLength s) := by
  rw [← hw]
  exact effectiveLength_of_le (hw.trans_le (truncatedLength_le _))

theorem decodeText_truncated : decodeText { s with srcLen := w } = decodeText s := by
  rw [decodeText, decodeText, decodeLength_truncated hw]
  exact congrArg _ (truncatedLength_four_mul _)

/-- The scan of the cut text stays within the scan of the whole. -/
theorem decodeScan_truncated_le : decodeScan { s with srcLen := w } ≤ decodeScan s :=
  calc decodeScan { s with srcLen := w }
    _ ≤ w.toNat := (decodeScan_eq_min _).trans_le (Nat.min_le_left ..)
    _ ≤ decodeLength s := hw.trans_le (truncatedLength_le _)
    _ ≤ decodeScan s := decodeLength_le_scan s

/-- A text of four characters or more, cut to whole groups, passes and fails the checks that the whole does. -/
theorem execDecode_truncated {t : State} (h4 : 4 ≤ decodeLength s) (h : execDecode true true s = .next t) :
    execDecode true true { s with srcLen := w } = .next { t with srcLen := w } := by
  have htext := decodeText_truncated hw
  have hscan := decodeScan_truncated_le hw
  have hlong : 4 ≤ decodeLength { s with srcLen := w } := by
    rw [decodeLength_truncated hw, truncatedLength]
    omega
  obtain ⟨hp, -⟩ | ⟨-, hr, hout⟩ := execDecode_next h
  · cases hp
  · have hr' : firstInvalid s.plat s.srcAddr.toNat (decodeScan { s with srcLen := w }) = none :=
      (validRange_iff ..).1 (((validRange_iff ..).2 hr).mono hscan)
    obtain ⟨h0, -⟩ | ⟨-, hlt, -⟩ | ⟨-, hc, rfl⟩ | ⟨-, hfit, ho, hdst, rfl⟩ := hout
    · omega
    · omega
    · exact execDecode_short hr' hlong (by rwa [htext])
    · have ho' := (apart_iff ..).1 (((apart_iff ..).2 ho).mono hscan le_rfl)
      have ready : State.DecodeReady { s with srcLen := w } := ⟨hr', hlong, by rwa [htext], by rwa [htext]⟩
      rw [execDecode_completes ready ((validRange_iff ..).2 (by rwa [htext])), htext]
      rfl

end

/-- Settles O27: the characters past the last whole group change neither a check nor the text, and with no whole group
DECODE ends with ELEN. -/
theorem decodeTruncates : Obligations.DecodeTruncates := by
  refine ⟨fun s t k r hk hr hr' hlen h => ?_, fun s t h1 h3 h => ?_⟩
  · have hlen : decodeLength s = 4 * k + r := hlen
    have hle : decodeLength s ≤ s.srcLen.toNat := effectiveLength_le ..
    refine execDecode_truncated ?_ (by omega) h
    rw [BitVec.toNat_ofNat, truncatedLength]
    omega
  · have h1 : 1 ≤ decodeLength s := h1
    have h3 : decodeLength s ≤ 3 := h3
    obtain ⟨hp, -⟩ | ⟨-, -, ⟨h0, -⟩ | ⟨-, -, rfl⟩ | ⟨h4, -⟩ | ⟨h4, -⟩⟩ := execDecode_next h
    · cases hp
    · omega
    · rfl
    · omega
    · omega

/-! ### The round trip through memory (R194) -/

theorem Memory.bytesAt_succ_last (m : Memory) (a n : Nat) :
    m.bytesAt a (n + 1) = m.bytesAt a n ++ [m.byteAt (a + n)] := by
  induction n generalizing a with
  | zero => rfl
  | succ n ih =>
    rw [Memory.bytesAt, ih, Memory.bytesAt, Nat.add_right_comm]
    rfl

theorem Memory.byteAt_mem_bytesAt (m : Memory) (a : Nat) {n i : Nat} (hi : i < n) : m.byteAt (a + i) ∈ m.bytesAt a n :=
  List.mem_of_getElem? (Memory.getElem?_bytesAt m a n i hi)

/-- Where a list stands in memory, its last byte stands after the rest. -/
theorem Memory.bytesAt_eq_append_singleton {m : Memory} {a : Nat} {bs : List Byte} {b : Byte}
    (h : m.bytesAt a (bs.length + 1) = bs ++ [b]) : m.bytesAt a bs.length = bs ∧ m.byteAt (a + bs.length) = b := by
  rw [Memory.bytesAt_succ_last] at h
  obtain ⟨hinit, hlast⟩ := List.append_inj' h rfl
  exact ⟨hinit, List.head_eq_of_cons_eq hlast⟩

/-- An encoded text holds no TERM, so one that TERM follows has its whole length as its effective length (R181,
41_alphabet_lut.md R126). -/
theorem effectiveLength_encodeBytes {m : Memory} {a k : Nat} {raw : List Byte}
    (htext : m.bytesAt a (textLength raw.length) = encodeBytes raw)
    (hterm : m.byteAt (a + textLength raw.length) = Config.term) (hk : textLength raw.length ≤ k) :
    effectiveLength m a k = textLength raw.length :=
  effectiveLength_eq hk
    (fun _ hi => ne_term_of_mem_encodeBytes (htext ▸ Memory.byteAt_mem_bytesAt m a hi)) (fun _ => hterm)

/-- DECODE of an encoded text that stands at SRC_ADDR with TERM after it gives the raw bytes back (R194). -/
theorem execDecode_encodeBytes {u : State} {raw : List Byte}
    (hsrc : u.mem.bytesAt u.srcAddr.toNat (textLength raw.length + 1) = encodeBytes raw ++ [Config.term])
    (hscan : validRange u.plat u.srcAddr.toNat (textLength raw.length + 1))
    (hlen : textLength raw.length ≤ u.srcLen.toNat) (hcap : raw.length ≤ u.dstCap.toNat)
    (hapart : apart u.srcAddr.toNat (textLength raw.length + 1) u.dstAddr.toNat raw.length)
    (hdst : validRange u.plat u.dstAddr.toNat raw.length) :
    ∃ v, execDecode true true u = .next v ∧ reports v 0#4 raw.length ∧
      v.mem.bytesAt u.dstAddr.toNat raw.length = raw := by
  rw [← length_encodeBytes] at hsrc
  obtain ⟨htext, hterm⟩ := Memory.bytesAt_eq_append_singleton hsrc
  rw [length_encodeBytes] at htext hterm
  have hlength : decodeLength u = textLength raw.length := effectiveLength_encodeBytes htext hterm hlen
  have hscan' : validRange u.plat u.srcAddr.toNat (min u.srcLen.toNat (decodeLength u + 1)) :=
    hscan.mono (hlength ▸ Nat.min_le_right ..)
  cases raw with
  | nil =>
    obtain ⟨v, hv, -, hreports, -⟩ := decodeEmptyText u hlength (by rwa [hlength] at hscan')
    exact ⟨v, hv, hreports, rfl⟩
  | cons b raw =>
    have hdecoded : decodeText u = encodeBytes (b :: raw) := by
      rw [decodeText, hlength, textLength, truncatedLength_four_mul]
      exact htext
    have hraw : decodeGroups (decodeText u) = b :: raw := hdecoded ▸ decodingInvertsEncoding (b :: raw)
    have hexpected : expectedLength (decodeText u) = (b :: raw).length :=
      hdecoded ▸ expectedLength_encodeBytes (b :: raw)
    have ready : u.DecodeReady := by
      refine ⟨(scanned_iff u).2 hscan', ?_, ?_, ?_⟩
      · rw [hlength, textLength, groupCount, List.length_cons]
        omega
      · rwa [hexpected]
      · rw [hexpected, ← apart_iff, decodeScan_eq_min]
        exact hapart.mono (hlength ▸ Nat.min_le_right ..) le_rfl
    refine ⟨_, execDecode_completes ready (by rwa [hraw]), ?_, ?_⟩
    · rw [hraw]
      exact reports_complete_ok (Nat.lt_of_le_of_lt hcap u.dstCap.isLt) _
    · rw [hraw]
      exact Memory.bytesAt_store ..

/-- After a success the destination holds ENCODE's output, and had storage for all of it (42_encode.md R147). -/
theorem execEncode_success {s t : State} (h : execEncode true true s = .next t) (he : t.err = 0#4) :
    validRange s.plat s.dstAddr.toNat (encodeNeed s.srcLen.toNat) ∧
      t.mem.bytesAt s.dstAddr.toNat (encodeNeed s.srcLen.toNat) = encodeOutput s := by
  obtain ⟨hp, -⟩ | ⟨-, -, rfl⟩ | ⟨-, -, -, -, hdst, rfl⟩ := execEncode_next h
  · cases hp
  · cases he
  · rw [← length_encodeOutput, validRange_iff]
    exact ⟨hdst, Memory.bytesAt_store ..⟩

/-- Settles O28: the text still stands where ENCODE stored it, and DECODE of an encoded text gives its raw bytes. -/
theorem roundTripThroughMemory : Obligations.RoundTripThroughMemory := by
  intro s t u h he hplat hsrc hmem hlen hcap hapart hdst
  have hraw : (encodeRaw s).length = s.srcLen.toNat := Memory.length_bytesAt ..
  obtain ⟨hvalid, hout⟩ := execEncode_success h he
  have hstands : u.mem.bytesAt s.dstAddr.toNat (encodeNeed s.srcLen.toNat) = encodeOutput s := by
    refine (Memory.bytesAt_congr fun i hi => hmem _ (Nat.le_add_right ..) ?_).trans hout
    rw [encodeNeed_eq] at hi
    omega
  have hdecode := execDecode_encodeBytes (u := u) (raw := encodeRaw s)
  rw [hraw, hsrc] at hdecode
  exact hdecode hstands (hplat ▸ hvalid) hlen hcap hapart hdst

end Sys2Proof.Machine
end

section
/-! How a command ends (60_exceptions.md R211 to R219): the condition of each code, said once for both commands, and the
completion of a Reserved word. -/

namespace Sys2Proof.Machine

/-! ### The codes -/

theorem ErrCode.bits_injective : Function.Injective ErrCode.bits := by
  intro c d
  cases c <;> cases d <;> simp [ErrCode.bits]

/-- A failure leaves 2^32 minus its code in RESULT (10_state.md R27). -/
theorem toNat_resultValue_of_ne_ok {code : ErrCode} (h : code ≠ .ok) (n : Nat) :
    (resultValue code n).toNat = 2 ^ 32 - code.bits.toNat := by
  cases code with
  | ok => exact absurd rfl h
  | earg | elen | ecap | ecmd | emem => rfl

/-! ### The ends of both commands -/

/-- When ENCODE and DECODE end with a failure code: R212 to R214. ECMD is for words that are no
command (R215), and EMEM is a fault here (R216). -/
def State.FailsWith (s : State) (i : Instr) : ErrCode → Prop
  | .earg => (i.sp && i.dp) = false
  | .elen => i = .decode true true ∧ 1 ≤ decodeLength s ∧ decodeLength s ≤ 3
  | .ecap =>
    (i = .encode true true ∧ s.dstCap.toNat < encodeNeed s.srcLen.toNat) ∨
    (i = .decode true true ∧ 4 ≤ decodeLength s ∧ s.dstCap.toNat < expectedLength (decodeText s))
  | .ok | .ecmd | .emem => False

theorem State.FailsWith.ne_ok {s : State} {i : Instr} {code : ErrCode} (h : s.FailsWith i code) : code ≠ .ok := by
  rintro rfl
  exact h

/-- Every next state of a command: it fails with a code whose condition holds and stores nothing, or it succeeds with its
output stored and a count that fits RESULT (R211). An empty text is no case of its own: it decodes to no bytes. -/
theorem exec_next {i : Instr} {s t : State} (h : exec i s = .next t) :
    (∃ code, s.FailsWith i code ∧ t = complete code 0 s) ∨
    (i = .encode true true ∧ textLength s.srcLen.toNat < 2 ^ 32 ∧
      t = s.finish .ok (textLength s.srcLen.toNat) (encodeOutput s)) ∨
    (i = .decode true true ∧ (decodeGroups (decodeText s)).length < 2 ^ 32 ∧
      t = s.finish .ok (decodeGroups (decodeText s)).length (decodeGroups (decodeText s))) := by
  cases hp : i.sp && i.dp with
  | false =>
    rw [exec_absent hp] at h
    cases h
    exact .inl ⟨.earg, hp, rfl⟩
  | true =>
    obtain rfl | rfl := eq_of_present hp
    · rw [exec_encode] at h
      obtain ⟨hp, -⟩ | ⟨-, hc, rfl⟩ | ⟨-, hfit, -, -, -, rfl⟩ := execEncode_next h
      · cases hp
      · exact .inl ⟨.ecap, .inl ⟨rfl, hc⟩, rfl⟩
      · exact .inr (.inl ⟨rfl, textLength_lt hfit, rfl⟩)
    · rw [exec_decode] at h
      obtain ⟨hp, -⟩ | ⟨-, -, ⟨h0, rfl⟩ | ⟨h0, h4, rfl⟩ | ⟨h4, hc, rfl⟩ | ⟨-, hfit, -, -, rfl⟩⟩ := execDecode_next h
      · cases hp
      · have hempty : decodeGroups (decodeText s) = [] := by rw [decodeText, h0]; rfl
        rw [hempty]
        exact .inr (.inr ⟨rfl, by decide, rfl⟩)
      · exact .inl ⟨.elen, ⟨rfl, by omega, by omega⟩, rfl⟩
      · exact .inl ⟨.ecap, .inr ⟨rfl, h4, hc⟩, rfl⟩
      · exact .inr (.inr ⟨rfl, length_decodeGroups_decodeText_lt hfit, rfl⟩)

/-- A failure code in STATUS.ERR says that its condition held. -/
theorem failsWith_of_err {i : Instr} {s t : State} {code : ErrCode} (h : exec i s = .next t) (he : t.err = code.bits)
    (hc : code ≠ .ok) : s.FailsWith i code := by
  obtain ⟨code', hf, rfl⟩ | ⟨-, -, rfl⟩ | ⟨-, -, rfl⟩ := exec_next h
  · rwa [← ErrCode.bits_injective he]
  · exact absurd he.symm (ErrCode.bits_injective.ne hc)
  · exact absurd he.symm (ErrCode.bits_injective.ne hc)

@[simp] theorem result_finish (s : State) (code : ErrCode) (n : Nat) (bs : List Byte) :
    (s.finish code n bs).result = resultValue code n := rfl

theorem sameOutside_finish (s : State) (code : ErrCode) (n : Nat) (bs : List Byte) :
    sameOutside s.mem (s.finish code n bs).mem s.dstAddr.toNat bs.length :=
  fun _ => Memory.byteAt_store_outside

/-- Settles O30: a failure is a completion over the memory as it was, and a success stores as many bytes as its count
says, with TERM one more. -/
theorem commandsWriteNothingElse : Obligations.CommandsWriteNothingElse := by
  intro i s t h
  obtain ⟨code, hf, rfl⟩ | ⟨rfl, hn, rfl⟩ | ⟨rfl, hn, rfl⟩ := exec_next h
  · have hfailed : code.bits ≠ 0#4 := ErrCode.bits_injective.ne hf.ne_ok
    exact ⟨engineFrame_complete code 0 s.mem s, rfl, rfl,
      fun _ => ⟨fun _ => rfl, toNat_resultValue_of_ne_ok hf.ne_ok 0⟩,
      fun he => absurd he hfailed, fun he => absurd he hfailed⟩
  · have hcount := toNat_resultValue_ok hn
    have hlen : (encodeOutput s).length = textLength s.srcLen.toNat + 1 := length_encodeOutput s
    refine ⟨engineFrame_complete .., rfl, rfl, fun he => absurd rfl he, fun _ _ => ⟨hcount, ?_⟩, nofun⟩
    rw [result_finish, hcount, ← hlen]
    exact sameOutside_finish s .ok _ _
  · refine ⟨engineFrame_complete .., rfl, rfl, fun he => absurd rfl he, nofun, fun _ _ => ?_⟩
    rw [result_finish, toNat_resultValue_ok hn]
    exact sameOutside_finish s .ok _ _

/-- Settles O24: no whole group ends DECODE with ELEN, and the code has no other condition. -/
theorem decodeUnusableLength : Obligations.DecodeUnusableLength := by
  refine ⟨fun s h1 h3 hscan => ?_, fun i s t h he => failsWith_of_err (code := .elen) h he nofun⟩
  have h1 : 1 ≤ decodeLength s := h1
  have hshort : execDecode true true s = .next (complete .elen 0 s) :=
    execDecode_tooShort ((scanned_iff s).2 hscan) (by omega) (Nat.lt_succ_of_le h3)
  exact ⟨_, hshort, engineFrame_complete .elen 0 s.mem s, ⟨rfl, rfl, rfl, rfl⟩, rfl⟩

/-- Settles O29: presence is checked before anything else, and the code has no other condition. -/
theorem absentReferenceFailsWithEarg : Obligations.AbsentReferenceFailsWithEarg := by
  refine ⟨fun i s h => ?_, fun i s t h he => Bool.and_eq_false_iff.1 (failsWith_of_err (code := .earg) h he nofun)⟩
  exact ⟨_, exec_absent (Bool.and_eq_false_iff.2 h) s, engineFrame_complete .earg 0 s.mem s, ⟨rfl, rfl, rfl, rfl⟩, rfl⟩

/-! ### Reserved words -/

/-- The words that R71 and R73 reserve, their fields read as numbers. -/
theorem decodeCmd_eq_error {w : Word}
    (h : w.toNat / 1024 ≠ 0 ∨ w.toNat / 16 % 16 ≠ 0 ∨ (w.toNat % 16 ≠ 1 ∧ w.toNat % 16 ≠ 2)) :
    ∃ e, decodeCmd w = .error e := by
  obtain ⟨hbits, hfields⟩ := decodingIsTotalByFields w
  by_cases hres : w.toNat / 1024 ≠ 0 ∨ w.toNat / 16 % 16 ≠ 0
  · exact ⟨_, hbits hres⟩
  · obtain ⟨-, -, hop⟩ := hfields (by omega) (by omega)
    exact ⟨_, hop (by omega) (by omega)⟩

theorem engineTurn_reserved {s : State} {e : DecodeError} (hbusy : s.busy = true) (hc : decodeCmd s.cmd = .error e) :
    engineTurn s = .next (complete .ecmd 0 s) := by
  simp [engineTurn, hbusy, perform, hc]

/-- The engine has its turn at its event, and where no event is left (40_command_interface.md R105, log 2). -/
theorem step_eq_engineTurn {s : State} {rest : List Event}
    (h : s.inputs = .engine :: rest ∨ (s.inputs = [] ∧ rest = [])) : step s = engineTurn { s with inputs := rest } := by
  obtain hin | ⟨hin, rfl⟩ := h
  · exact step_cons hin
  · rw [step_nil hin, ← hin]

/-- Settles O5: the turn is the engine's, and no command stands in CMD. -/
theorem reservedWordCompletesWithEcmd : Obligations.ReservedWordCompletesWithEcmd := by
  intro s rest hbusy hturn hword
  obtain ⟨e, hc⟩ := decodeCmd_eq_error hword
  refine ⟨_, (step_eq_engineTurn hturn).trans (engineTurn_reserved hbusy hc), ?_, ⟨rfl, rfl, rfl, rfl⟩, rfl⟩
  exact engineFrame_complete .ecmd 0 s.mem { s with inputs := rest }

end Sys2Proof.Machine
end

section
/-! Buffers closed to the host and the reset event (70_reset_and_hazards.md R240, R241, R245): which byte a host access
is refused at, and what a reset leaves of the registers and of memory. -/

namespace Sys2Proof.Machine

/-! ### Host accesses to the buffers of a command (R245) -/

theorem Footprint.touches_iff (f : Footprint) (x : Nat) :
    f.touches x = true ↔ (f.readBase ≤ x ∧ x < f.readBase + f.readLen) ∨
      (f.writeBase ≤ x ∧ x < f.writeBase + f.writeLen) := by
  simp [Footprint.touches, Footprint.reads, Footprint.writes]

/-- Where every byte has storage, a closed buffer is the only ground for a refusal. -/
theorem hostRefusal_of_validRange {s : State} {a n : Nat} {r : Refusal} (hvalid : validRange s.plat a n)
    (h : hostRefusal s a n = some r) : ∃ x, s.inUse x = true ∧ r = .bufferInUse x := by
  induction n generalizing a with
  | zero => cases h
  | succ n ih =>
    rw [hostRefusal, if_neg (by simpa using hvalid 0 n.succ_pos)] at h
    by_cases hu : s.inUse a = true
    · rw [if_pos hu] at h
      exact ⟨a, hu, (Option.some.inj h).symm⟩
    · rw [if_neg hu] at h
      have hrest : validRange s.plat (a + 1) n := fun i hi =>
        Nat.add_right_comm a 1 i ▸ hvalid (i + 1) (Nat.succ_lt_succ hi)
      exact ih hrest h

/-- An access with storage throughout that meets a closed byte is refused for a closed byte. -/
theorem hostRefusal_of_inUse {s : State} {a n i : Nat} (hvalid : validRange s.plat a n) (hi : i < n)
    (hu : s.inUse (a + i) = true) : ∃ x, s.inUse x = true ∧ hostRefusal s a n = some (.bufferInUse x) := by
  cases hr : hostRefusal s a n with
  | none =>
    obtain ⟨-, hfree⟩ := (hostRefusal_eq_none s a n).1 hr i hi
    exact absurd (hu.symm.trans hfree) nofun
  | some r =>
    obtain ⟨x, hx, rfl⟩ := hostRefusal_of_validRange hvalid hr
    exact ⟨x, hx, rfl⟩

/-- Settles O49: a byte of a recorded footprint is in use, so the access's first ground for a refusal is such a byte. -/
theorem buffersInUseAreRefused : Obligations.BuffersInUseAreRefused := by
  intro s rest f a i hf htouch
  have hu : s.inUse (a + i) = true := inUse_of_mem hf ((f.touches_iff _).2 htouch)
  refine ⟨fun n hi hvalid hin => ?_, fun bs hi hvalid hin => ?_⟩
  · obtain ⟨x, hx, hr⟩ := hostRefusal_of_inUse (s := { s with inputs := rest }) hvalid hi hu
    exact ⟨x, hx, (step_cons hin).trans (by rw [runEvent, hostBufRead, hr])⟩
  · obtain ⟨x, hx, hr⟩ := hostRefusal_of_inUse (s := { s with inputs := rest }) hvalid hi hu
    exact ⟨x, hx, (step_cons hin).trans (by rw [runEvent, hostBufWrite, hr])⟩

/-! ### Reset (R240, R241) -/

theorem step_reset {s : State} {rest : List Event} (h : s.inputs = .reset :: rest) :
    step s = .next (resetEvent { s with inputs := rest }) :=
  step_cons h

theorem Footprint.writes_eq_false_iff (f : Footprint) (x : Nat) :
    f.writes x = false ↔ x < f.writeBase ∨ f.writeBase + f.writeLen ≤ x := by
  simp only [Footprint.writes, Bool.and_eq_false_iff, decide_eq_false_iff_not, not_le, not_lt]

theorem resetEvent_mem_idle {s : State} (h : s.busy = false) : (resetEvent s).mem = s.mem := by
  simp [h, storeFree]

/-- The free bytes of a reset stay inside the write set of the command in flight. -/
theorem byteAt_resetEvent {s : State} {x : Nat} (h : (footprint s).writes x = false) :
    (resetEvent s).mem.byteAt x = s.mem.byteAt x := by
  rw [Footprint.writes_eq_false_iff] at h
  rw [resetEvent_mem]
  exact byteAt_storeFree_outside (by split <;> omega)

/-- Settles O53: the free bytes go to the write set of a command in flight, and there is none while idle. -/
theorem resetEventAndMemory : Obligations.ResetEventAndMemory := by
  intro s t rest hin ht
  obtain rfl : resetEvent { s with inputs := rest } = t := Host.Outcome.next.inj ((step_reset hin).symm.trans ht)
  exact ⟨resetEvent_mem_idle, fun _ _ => byteAt_resetEvent⟩

theorem statusWord_resetEvent (s : State) : statusWord (resetEvent s) = 0#32 := by
  rw [statusWord, resetEvent_err, resetEvent_ovr, resetEvent_done, resetEvent_busy]
  decide

/-- Settles O52: the reset state on the same platform, read field by field. -/
theorem resetEventClearsRegisters : Obligations.ResetEventClearsRegisters :=
  fun _ _ hin => ⟨_, step_reset hin, rfl, statusWord_resetEvent _, rfl, rfl, rfl, rfl, rfl, rfl, rfl, rfl, rfl, rfl⟩

end Sys2Proof.Machine
end
